-- ==== Sys2Proof/Word.lean ====
section
/-! DEFINITION. The word types of the block: bits, bit strings, nibbles and 8-bit words (spec/00_scope.md R10, R11; spec/30_encoding.md R60). -/

namespace Sys2Proof

/-- A Bit: "a single binary digit, value 0 or 1" (R10). -/
abbrev Bit := Bool

/-- A BitString: an ordered sequence of bits of arbitrary length, the bit at position 0 first (R10, R54). -/
abbrev BitString := List Bool

/-- The format `N4`: 4 bits on a bus, position 0 (`d1`) on the most significant bus bit (R11, R60, R62). -/
abbrev Nibble := BitVec 4

/-- The format `C8`: any 8-bit word, a codeword or a candidate, position 0 (`p1`) on the most significant bus bit (R11, R60, R61). -/
abbrev Word8 := BitVec 8

end Sys2Proof
end

