-- ==== Sys2Proof/Syntax.lean ====
section
/-! DEFINITION. The operations of the block, the port transactions that issue them, and the result values they drive (spec/30_encoding.md R60 to R67; spec/10_state.md R34). -/

namespace Sys2Proof

/-- The nine operations of R66, one constructor per row of spec/opcode_table.json, the operand as the argument (R67). -/
inductive Instr where
  | cbrd (a : Nibble)    -- CBRD a: read one codebook entry (R80)
  | enc4 (n : Nibble)    -- ENC4 n: encode one nibble (R92)
  | epush (b : Bit)      -- EPUSH b: push one message bit into the encoder engine (R96)
  | eend                 -- EEND: end the encoder message (R97)
  | syn (c : Word8)      -- SYN c: syndrome and overall check (R111)
  | cls (c : Word8)      -- CLS c: classify one candidate (R129)
  | dpush (b : Bit)      -- DPUSH b: push one message bit into the decoder engine (R147)
  | dend                 -- DEND: end the decoder message (R148)
  | reset                -- RESET: both engines to their initial state (R210)
  deriving DecidableEq, Repr

/-- The port groups of R34 on which an operation can be issued. -/
inductive PortGroup where
  | rom
  | nibbleEncoder
  | syndrome
  | classifier
  | encoderStream
  | decoderStream
  | global
  deriving DecidableEq, Repr

/-- One port transaction of the host: a port group and the operand word on its inputs, position 0 first (R34, R60, R67). -/
structure Transaction where
  port    : PortGroup
  operand : BitString
  deriving DecidableEq, Repr

/-- Why a transaction issues no operation. -/
inductive DecodeReject where
  /-- The port group has no operation whose operand has this width (R34, R60). -/
  | operandWidth (port : PortGroup) (width : Nat)
  deriving DecidableEq, Repr

/-- The four classes of R128; `Clean` and `Corrected` carry the recovered nibble, the other two carry none (R125, R139). -/
inductive ErrorClass where
  | clean (n : Nibble)
  | corrected (n : Nibble)
  | doubleError
  | tripleOrMoreError
  deriving DecidableEq, Repr, Inhabited

/-- The two uncorrectable classes (R16, R128), the argument of the failure entry (R187). -/
inductive Uncorrectable where
  | doubleError
  | tripleOrMoreError
  deriving DecidableEq, Repr

/-- The failure causes, complete (R14, R180). -/
inductive Cause where
  | doubleError
  | tripleOrMoreError
  | malformedInput
  deriving DecidableEq, Repr, Inhabited

/-- The result of an end-of-message operation: `Ok(bits)` or `Failure(cause)` (R14, R65). -/
inductive Result where
  | ok (bits : BitString)
  | failure (cause : Cause)
  deriving DecidableEq, Repr

/-- The result of `SYN`, format `S4`: `S` on `syn_s[2:0]` and `sp` on `syn_p` (R60, R111). -/
structure Syndrome where
  S  : BitVec 3
  sp : Bit
  deriving DecidableEq, Repr

/-- The classes a diagnostic event can name: all but `Clean` (R195). -/
inductive DiagClass where
  | corrected
  | doubleError
  | tripleOrMoreError
  deriving DecidableEq, Repr

/-- One diagnostic event `diag(class, idx)` (R13, R195). -/
structure DiagEvent where
  cls : DiagClass
  idx : Nat
  deriving DecidableEq, Repr

/-- `dec_status`: `RUN` or `FAILED` (R20, R26). -/
inductive DecStatus where
  | run
  | failed
  deriving DecidableEq, Repr

/-- `dec_fail_class`: `NONE`, `DOUBLE` or `TRIPLE` (R20, R27). -/
inductive FailClass where
  | none
  | double
  | triple
  deriving DecidableEq, Repr

end Sys2Proof
end

