-- ==== Sys2Proof/Machine/Operands.lean ====
section
/-! DEFINITION. The arithmetic primitives and the operand formats: how bits, nibbles, 8-bit words and bit strings are put together and taken apart (spec/00_scope.md R12; spec/30_encoding.md R60 to R62, R68). -/

namespace Sys2Proof.Machine

/-- `popcount(b)`: the number of positions holding 1 (R12). -/
def popcount (bits : BitString) : Nat :=
  bits.count true

/-- `parity(b1, ..., bn) = (count of 1-bits) mod 2` (R12, R91). -/
def parity (bits : BitString) : Bit :=
  popcount bits % 2 == 1

/-- The bits of a nibble, position 0 (`d1`) first (R11, R62). -/
def nibbleBits (n : Nibble) : BitString :=
  [n.getMsbD 0, n.getMsbD 1, n.getMsbD 2, n.getMsbD 3]

/-- The nibble `d1 d2 d3 d4`, whose `value` is `8*d1 + 4*d2 + 2*d3 + d4` (R12, R62). -/
def nibbleOf (d1 d2 d3 d4 : Bit) : Nibble :=
  BitVec.ofNat 4 (8 * d1.toNat + 4 * d2.toNat + 2 * d3.toNat + d4.toNat)

/-- The bits of an 8-bit word, position 0 first (R10, R11). -/
def wordBits (c : Word8) : BitString :=
  [c.getMsbD 0, c.getMsbD 1, c.getMsbD 2, c.getMsbD 3,
   c.getMsbD 4, c.getMsbD 5, c.getMsbD 6, c.getMsbD 7]

/-- The 8-bit word with these bits, position 0 most significant (R10, R11; also the byte of R171). -/
def wordOf (b0 b1 b2 b3 b4 b5 b6 b7 : Bit) : Word8 :=
  BitVec.ofNat 8 (128 * b0.toNat + 64 * b1.toNat + 32 * b2.toNat + 16 * b3.toNat
    + 8 * b4.toNat + 4 * b5.toNat + 2 * b6.toNat + b7.toNat)

/-- The candidate a bit string of exactly 8 bits is (R60, R147). -/
def candidateOf : BitString → Option Word8
  | [b0, b1, b2, b3, b4, b5, b6, b7] => some (wordOf b0 b1 b2 b3 b4 b5 b6 b7)
  | _ => none

/-- `hdist(a, b) = popcount(a xor b)` (R12). -/
def hdist (a b : Word8) : Nat :=
  popcount (wordBits (a ^^^ b))

/-- `flip(c, i)`: the word with the bit at position `i` inverted (R12). -/
def flip (c : Word8) (i : Fin 8) : Word8 :=
  c ^^^ BitVec.ofNat 8 (2 ^ (7 - i.val))

/-- `data(c) = c[2] c[4] c[5] c[6]`, the data bits `d1 d2 d3 d4` of a word (R12, R68). -/
def dataOf (c : Word8) : Nibble :=
  nibbleOf (c.getMsbD 2) (c.getMsbD 4) (c.getMsbD 5) (c.getMsbD 6)

end Sys2Proof.Machine
end

