-- ==== Sys2Proof/WellFormed.lean ====
section
/-! DEFINITION. Which operations and which port transactions are well formed (spec/30_encoding.md R60, R69; spec/10_state.md R34). -/

namespace Sys2Proof

/-- Every operation is well formed: the operand widths are in the types, and "no operand value is illegal or reserved" (R69). -/
def WellFormed : Instr → Bool
  | .cbrd _ => true
  | .enc4 _ => true
  | .epush _ => true
  | .eend => true
  | .syn _ => true
  | .cls _ => true
  | .dpush _ => true
  | .dend => true
  | .reset => true

/-- The operand widths a port group takes (R34, R60): a stream port takes one bit (a push) or none (the end of the message). -/
def PortGroup.widths : PortGroup → List Nat
  | .rom => [4]
  | .nibbleEncoder => [4]
  | .syndrome => [8]
  | .classifier => [8]
  | .encoderStream => [0, 1]
  | .decoderStream => [0, 1]
  | .global => [0]

/-- A transaction is well formed when its operand has a width its port group takes (R34, R60). -/
def Transaction.wellFormed (t : Transaction) : Bool :=
  t.port.widths.contains t.operand.length

end Sys2Proof
end

