-- ==== Sys2Proof/Decode.lean ====
section
/-! DEFINITION. From port transactions to operations and back (spec/10_state.md R34; spec/30_encoding.md R60, R66, R67). The block has no command word: the port group and the width of the operand select the operation. -/

namespace Sys2Proof

open Sys2Proof.Machine

/-- The operand does not have a width the port group takes: rejected by name. -/
def rejectWidth (port : PortGroup) (operand : BitString) : Except DecodeReject Instr :=
  .error (.operandWidth port operand.length)

/-- The operation issued by an operand word on a port group (R34, R66, R67). On a stream port one bit is a push and no bit
is the end of the message. -/
def decodeOn (port : PortGroup) (operand : BitString) : Except DecodeReject Instr :=
  match port with
  | .rom =>
    match operand with
    | [a3, a2, a1, a0] => .ok (.cbrd (nibbleOf a3 a2 a1 a0))
    | o => rejectWidth .rom o
  | .nibbleEncoder =>
    match operand with
    | [d1, d2, d3, d4] => .ok (.enc4 (nibbleOf d1 d2 d3 d4))
    | o => rejectWidth .nibbleEncoder o
  | .syndrome =>
    match candidateOf operand with
    | some c => .ok (.syn c)
    | none => rejectWidth .syndrome operand
  | .classifier =>
    match candidateOf operand with
    | some c => .ok (.cls c)
    | none => rejectWidth .classifier operand
  | .encoderStream =>
    match operand with
    | [] => .ok .eend
    | [b] => .ok (.epush b)
    | o => rejectWidth .encoderStream o
  | .decoderStream =>
    match operand with
    | [] => .ok .dend
    | [b] => .ok (.dpush b)
    | o => rejectWidth .decoderStream o
  | .global =>
    match operand with
    | [] => .ok .reset
    | o => rejectWidth .global o

/-- The operation a transaction issues; total, and a width the port group does not take is rejected by name. -/
def decode (t : Transaction) : Except DecodeReject Instr :=
  decodeOn t.port t.operand

/-- The transaction that issues an operation (R34, R60, R66). -/
def encode : Instr → Transaction
  | .cbrd a => { port := .rom, operand := nibbleBits a }
  | .enc4 n => { port := .nibbleEncoder, operand := nibbleBits n }
  | .epush b => { port := .encoderStream, operand := [b] }
  | .eend => { port := .encoderStream, operand := [] }
  | .syn c => { port := .syndrome, operand := wordBits c }
  | .cls c => { port := .classifier, operand := wordBits c }
  | .dpush b => { port := .decoderStream, operand := [b] }
  | .dend => { port := .decoderStream, operand := [] }
  | .reset => { port := .global, operand := [] }

/-- The port group and operand width of row `row` of spec/opcode_table.json, the rows numbered from 1 in the table's order.
DESIGN CHOICE (log entry 9): the numbering is the model's, for the two table-word functions only; 0 selects no port group. -/
def tableRow : Nat → Option (PortGroup × Nat)
  | 1 => some (.rom, 4)
  | 2 => some (.nibbleEncoder, 4)
  | 3 => some (.encoderStream, 1)
  | 4 => some (.encoderStream, 0)
  | 5 => some (.syndrome, 8)
  | 6 => some (.classifier, 8)
  | 7 => some (.decoderStream, 1)
  | 8 => some (.decoderStream, 0)
  | 9 => some (.global, 0)
  | _ => none

/-- The low `width` bits of `w`, most significant first: the operand word on a bus (R11). -/
def busBits : Nat → Nat → BitString
  | 0, _ => []
  | width + 1, w => w.testBit width :: busBits width w

/-- The transaction a table word stands for: bits 7..0 are the operand word, bits 15..8 the row number of `tableRow`.
DESIGN CHOICE (log entry 9). No transaction when no row is selected or the operand does not fit the row's width. -/
def tableTransaction (nbits w : Nat) : Option Transaction :=
  let v := w % 2 ^ nbits
  match tableRow (v / 256) with
  | none => none
  | some (port, width) =>
    if v % 256 < 2 ^ width then some { port := port, operand := busBits width (v % 256) }
    else none

/-- What the decoder reads from a table word (log entry 9). The bare operand word of a row names no operation (R67). -/
def decodeTableWord (nbits w : Nat) : Option Instr :=
  match tableTransaction nbits w with
  | none => none
  | some t =>
    match decode t with
    | .ok i => some i
    | .error _ => none

end Sys2Proof
end

