-- ==== Sys2Proof/Config.lean ====
section
/-! DEFINITION. The parameters of an implementation (spec/00_scope.md R9) and the free values. -/

namespace Sys2Proof

/-- The two static straps of R9 and R32. The values stand in State, where no operation writes them (log entry 4). -/
structure Straps where
  /-- `STRICT_LEN`: whether a pending fragment makes the end-of-message operation report `MalformedInput` (R9, R183). -/
  strictLen : Bool
  /-- `DIAG`: whether diagnostic events and the diagnostic part of the status port exist (R9, R195). -/
  diag : Bool
  deriving DecidableEq, Repr

/-- `STRICT_LEN = false` is the default of R9; `DIAG` is OPEN there and `true` is a DESIGN CHOICE (log entry 4). -/
def Config.defaultStraps : Straps :=
  { strictLen := false, diag := true }

/-- FREE VALUE (log entry 10): the cause `DEND` reports when `dec_status` is `FAILED` and `dec_fail_class` is `NONE`.
R148 gives no cause there, and R36 rules the state out. -/
opaque Config.causeOfNone : Cause

/-- FREE VALUE (log entry 11): the class of a completed chunk that does not hold exactly 8 bits.
R129 classifies 8-bit words only, and R20 and R36 keep `dec_frag` at 7 bits or fewer. -/
opaque Config.classOfUnframed : BitString → ErrorClass

end Sys2Proof
end

