-- ==== Sys2Proof/Machine/State.lean ====
section
/-! DEFINITION. The state of the block as plain data, its reasons to stop, and the state after reset (spec/10_state.md R20 to R37). -/

namespace Sys2Proof.Machine

/-- The encoder engine's registers (R20, R22, R23). -/
structure EncEngine where
  /-- `enc_frag`: the bits since the last complete 4-bit chunk, in arrival order. -/
  frag : BitString
  /-- `enc_acc`: the codewords of the current message, in production order. -/
  acc : BitString
  deriving DecidableEq, Repr

/-- The decoder engine's registers (R20, R24 to R27). -/
structure DecEngine where
  /-- `dec_frag`: the bits since the last complete 8-bit chunk, in arrival order. -/
  frag : BitString
  /-- `dec_acc`: the nibbles recovered so far. -/
  acc : BitString
  /-- `dec_status`. -/
  status : DecStatus
  /-- `dec_fail_class`. -/
  failClass : FailClass
  /-- `dec_idx`: chunks classified `Clean` or `Corrected`. -/
  idx : Nat
  /-- `dec_fail_idx`: index of the failing chunk. -/
  failIdx : Nat
  deriving DecidableEq, Repr

/-- What the last operation drove on the block's output ports (R30, R34). The outputs are transient: each operation
replaces them, and no operation reads them (log entry 2). -/
inductive Output where
  | none                                                -- no result: EPUSH, RESET, a DPUSH with no event
  | cbData (w : Word8)                                  -- CBRD: cb_data
  | encC (w : Word8)                                    -- ENC4: enc_c
  | syn (r : Syndrome)                                  -- SYN: syn_s, syn_p
  | cls (r : ErrorClass)                                -- CLS: cls_class, cls_nib
  | eResult (r : Result)                                -- EEND: e_result
  | dResult (r : Result) (failIdx : Option Nat)         -- DEND: d_result, with DIAG the failing chunk's index
  | diag (ev : DiagEvent)                               -- DPUSH: one diagnostic event
  deriving DecidableEq, Repr

/-- The machine's state: the registers of R20, the straps, the output ports, and the two fields of the model's own
(`diagLog`, log entry 3; `pending`, log entry 1). `CB` is a constant, not a field (R21, log entry 6). -/
structure State where
  /-- The encoder engine. -/
  enc : EncEngine
  /-- The decoder engine. -/
  dec : DecEngine
  /-- The straps, constant for the whole run (R32, R223). -/
  straps : Straps
  /-- The output ports after the last operation. -/
  out : Output
  /-- Ghost log of the diagnostic events emitted so far, oldest first (R37). -/
  diagLog : List DiagEvent
  /-- The transactions the host has still to issue, next one first. -/
  pending : List Transaction
  deriving DecidableEq, Repr

/-- Why the machine stops with a fault: never. Every operation completes ("Nothing suspends", R222), and the failures
of R180 are results carried by a next state (log entry 15), so there is no constructor and nothing here is unsafe. -/
inductive Fault where
  deriving DecidableEq, Repr

/-- Why a step gives no meaning. -/
inductive Refusal where
  /-- Raised by an arm of `exec` whose instruction has no meaning yet; safe. No arm raises it. -/
  | notModelled (mnemonic : String)
  /-- Raised by `step` when the next transaction has an operand width its port group does not take, so that it issues no
  operation of R66; safe (log entry 8). -/
  | malformedTransaction (why : DecodeReject)
  deriving DecidableEq, Repr

/-- The machine right after `RESET`: every register at the reset value of R20 and R35, the straps at their defaults,
nothing driven, nothing emitted, nothing to issue. -/
def State.reset : State where
  enc := { frag := [], acc := [] }
  dec := { frag := [], acc := [], status := .run, failClass := .none, idx := 0, failIdx := 0 }
  straps := Config.defaultStraps
  out := .none
  diagLog := []
  pending := []

end Sys2Proof.Machine
end

