-- ==== Sys2Proof/Machine/Ops.lean ====
section
/-! DEFINITION. The named operations over the state that the meanings share: driving an output, emitting a diagnostic event, the failure entry and the return from it (spec/10_state.md R34; spec/60_exceptions.md R187, R190, R195). -/

namespace Sys2Proof.Machine

/-- `result <- v`: drive an output port (R13, R34). -/
def drive (o : Output) (s : State) : State :=
  { s with out := o }

/-- `emit diag(class, idx)`: one event on the diagnostic port where `DIAG = true`, nothing otherwise (R13, R195). -/
def emitDiag (ev : DiagEvent) (s : State) : State :=
  if s.straps.diag then { s with out := .diag ev, diagLog := s.diagLog ++ [ev] } else s

/-- The failure class `dec_fail_class` records for an uncorrectable class (R187). -/
def failClassOf : Uncorrectable → FailClass
  | .doubleError => .double
  | .tripleOrMoreError => .triple

/-- The class the diagnostic event of a failure names (R187, R195). -/
def diagClassOf : Uncorrectable → DiagClass
  | .doubleError => .doubleError
  | .tripleOrMoreError => .tripleOrMoreError

/-- `raise <Class>(dec_idx)`: the failure entry of R187, the one operation that takes a failure. `dec_idx` is unchanged. -/
def raiseUncorrectable (u : Uncorrectable) (s : State) : State :=
  emitDiag { cls := diagClassOf u, idx := s.dec.idx }
    { s with
      dec :=
        { s.dec with
          status := .failed
          failClass := failClassOf u
          failIdx := s.dec.idx
          acc := []
          frag := [] } }

/-- Every decoder register to its reset value: the return from a failure and the end of a message (R148, R190, R35). -/
def clearDec (s : State) : State :=
  { s with dec := State.reset.dec }

/-- Every encoder register to its reset value (R97, R35). -/
def clearEnc (s : State) : State :=
  { s with enc := State.reset.enc }

end Sys2Proof.Machine
end

