-- ==== Sys2Proof/Machine/Codebook.lean ====
section
/-! DEFINITION. The unit ecc_codebook_rom: the constant table and `CBRD` (spec/40_codebook_rom.md; spec/20_memory.md R40, R41). -/

namespace Sys2Proof.Machine

/-- `CB[0..15]`, the literal table of R82, as R85 builds it. Nothing writes it (R21). -/
def codebook : List Word8 :=
  [0x00, 0xD2, 0x55, 0x87, 0x99, 0x4B, 0xCC, 0x1E,
   0xE1, 0x33, 0xB4, 0x66, 0x78, 0xAA, 0x2D, 0xFF]

/-- `RomRead(a) = CB[a]`: the one read of the only address space; every 4-bit address is populated (R13, R40, R41). -/
def romRead (a : Nibble) : Word8 :=
  codebook[a.toNat]'a.isLt

/-- `CBRD a` (R80): drives `cb_data`, touches no register. -/
def execCbrd (a : Nibble) (s : State) : Host.Outcome State Fault Refusal :=
  .next (drive (.cbData (romRead a)) s)

end Sys2Proof.Machine
end

