-- ==== Sys2Proof/Machine/Syndrome.lean ====
section
/-! DEFINITION. The unit syndrome_calculator: `SYN` (spec/42_syndrome_calculator.md). -/

namespace Sys2Proof.Machine

/-- `S = 4*s3 + 2*s2 + s1` on `syn_s[2:0]` (R111). -/
def syndromeNumber (s3 s2 s1 : Bit) : BitVec 3 :=
  BitVec.ofNat 3 (4 * s3.toNat + 2 * s2.toNat + s1.toNat)

/-- `syn(c)`: the three checks and the overall check of a received word (R111). -/
def syndrome (c : Word8) : Syndrome :=
  let s1 := parity [c.getMsbD 0, c.getMsbD 2, c.getMsbD 4, c.getMsbD 6]
  let s2 := parity [c.getMsbD 1, c.getMsbD 2, c.getMsbD 5, c.getMsbD 6]
  let s3 := parity [c.getMsbD 3, c.getMsbD 4, c.getMsbD 5, c.getMsbD 6]
  { S := syndromeNumber s3 s2 s1, sp := parity (wordBits c) }

/-- `errpos(S)`: 7 if `S = 0`, else `S - 1`; meaningful only when `sp = 1` (R116). -/
def errpos (S : BitVec 3) : Fin 8 :=
  (S - 1).toFin

/-- `SYN c` (R111): drives `syn_s` and `syn_p`, touches no register. -/
def execSyn (c : Word8) (s : State) : Host.Outcome State Fault Refusal :=
  .next (drive (.syn (syndrome c)) s)

end Sys2Proof.Machine
end

