-- ==== Sys2Proof/Machine/Classifier.lean ====
section
/-! DEFINITION. The unit error_classifier: `CLS` (spec/43_error_classifier.md). -/

namespace Sys2Proof.Machine

/-- The scan of R129 over the entries still to read, in table order: one pass, three exits tested at each entry (R126).
The last case is the end of the table with no exit (R125); it is kept although no candidate reaches it (R134). -/
def scan (c : Word8) : List Word8 → ErrorClass
  | [] => .tripleOrMoreError
  | e :: rest =>
    if hdist c e = 0 then .clean (dataOf c)
    else if hdist c e = 1 then .corrected (dataOf e)
    else if hdist c e = 2 then .doubleError
    else scan c rest

/-- `classify(c)` (R129): the scan over the ROM from index 0. -/
def classify (c : Word8) : ErrorClass :=
  scan c codebook

/-- `classify_syn(c)` (R136): the syndrome path, no part of any meaning; R136 says that it equals `classify`. -/
def classifySyn (c : Word8) : ErrorClass :=
  if (syndrome c).sp then .corrected (dataOf (flip c (errpos (syndrome c).S)))
  else if (syndrome c).S = 0 then .clean (dataOf c)
  else .doubleError

/-- `CLS c` (R129): drives `cls_class` and `cls_nib`, touches no register. -/
def execCls (c : Word8) (s : State) : Host.Outcome State Fault Refusal :=
  .next (drive (.cls (classify c)) s)

end Sys2Proof.Machine
end

