-- ==== Sys2Proof/Machine/Flags.lean ====
section
/-! DEFINITION. Codes, causes and the status port: everything the block says about classes and failures (spec/30_encoding.md R64, R65; spec/10_state.md R30, R34; spec/60_exceptions.md R180). -/

namespace Sys2Proof.Machine

/-- The class code on `cls_class[1:0]` (R64). -/
def classCode : ErrorClass → BitVec 2
  | .clean _ => 0b00
  | .corrected _ => 0b01
  | .doubleError => 0b10
  | .tripleOrMoreError => 0b11

/-- The nibble on `cls_nib[3:0]`, present only for `Clean` and `Corrected` (R129, R139). -/
def classNibble : ErrorClass → Option Nibble
  | .clean n => some n
  | .corrected n => some n
  | .doubleError => none
  | .tripleOrMoreError => none

/-- The cause codes (R65, R180). -/
def causeCode : Cause → Nat
  | .doubleError => 2
  | .tripleOrMoreError => 3
  | .malformedInput => 4

/-- The codes `dec_fail_class` stores (R65). -/
def failClassCode : FailClass → Nat
  | .none => 0
  | .double => 2
  | .triple => 3

/-- The cause `DEND` reports for a stored failure class (R148); for `NONE` the free value of log entry 10. -/
def causeOf : FailClass → Cause
  | .none => Config.causeOfNone
  | .double => .doubleError
  | .triple => .tripleOrMoreError

/-- The diagnostic part of the status port: `d_fail_class`, `d_fail_idx`, `d_idx` (R34). -/
structure DiagStatus where
  failClass : FailClass
  failIdx : Nat
  idx : Nat
  deriving DecidableEq, Repr

/-- What the host reads on the continuous decoder status port (R34). -/
structure StatusPort where
  status : DecStatus
  diag : Option DiagStatus
  deriving DecidableEq, Repr

/-- The decoder status port: `d_status` always, the diagnostic registers only where `DIAG = true` (R32, R34, R185). -/
def statusPort (s : State) : StatusPort where
  status := s.dec.status
  diag :=
    if s.straps.diag then
      some { failClass := s.dec.failClass, failIdx := s.dec.failIdx, idx := s.dec.idx }
    else none

end Sys2Proof.Machine
end

