-- ==== Sys2Proof/Machine/Decoder.lean ====
section
/-! DEFINITION. The unit hamming_84_decoder: the decoder engine `DPUSH`, `DEND` (spec/44_decoder.md). -/

namespace Sys2Proof.Machine

/-- The class of a completed chunk (R147). A chunk of other than 8 bits is in no state R20 allows: its class is the
free value of log entry 11. -/
def classifyChunk (f : BitString) : ErrorClass :=
  match candidateOf f with
  | some c => classify c
  | none => Config.classOfUnframed f

/-- A chunk that yields a nibble: append its bits and count the chunk (R147, R27). -/
def acceptNibble (n : Nibble) (s : State) : State :=
  { s with dec := { s.dec with acc := s.dec.acc ++ nibbleBits n, idx := s.dec.idx + 1 } }

/-- What a completed chunk's class does to the decoder (R147); the event of a `Corrected` chunk carries the index before
it is counted. -/
def takeChunk (cls : ErrorClass) (s : State) : State :=
  match cls with
  | .clean n => acceptNibble n s
  | .corrected n => acceptNibble n (emitDiag { cls := .corrected, idx := s.dec.idx } s)
  | .doubleError => raiseUncorrectable .doubleError s
  | .tripleOrMoreError => raiseUncorrectable .tripleOrMoreError s

/-- One bit into the decoder (R147): ignored while `FAILED`, buffered until the chunk is complete, then classified. -/
def pushDec (b : Bit) (s : State) : State :=
  match s.dec.status with
  | .failed => s
  | .run =>
    let f := s.dec.frag ++ [b]
    if f.length < 8 then { s with dec := { s.dec with frag := f } }
    else takeChunk (classifyChunk f) { s with dec := { s.dec with frag := [] } }

/-- `DPUSH b` (R147): no result, at most one diagnostic event. -/
def execDpush (b : Bit) (s : State) : Host.Outcome State Fault Refusal :=
  .next (pushDec b (drive .none s))

/-- The result of `DEND` (R148): an uncorrectable chunk before a pending fragment (R189). -/
def decResult (strict : Bool) (d : DecEngine) : Result :=
  match d.status with
  | .failed => .failure (causeOf d.failClass)
  | .run => if strict && d.frag.length != 0 then .failure .malformedInput else .ok d.acc

/-- The chunk index of the failure that `d_result` carries where `DIAG = true` (R34, R148); none for any other result. -/
def decFailureIndex (s : State) : Option Nat :=
  match s.dec.status with
  | .failed => if s.straps.diag then some s.dec.failIdx else none
  | .run => none

/-- `DEND` (R148): delivers the result and clears the engine. -/
def execDend (s : State) : Host.Outcome State Fault Refusal :=
  .next (drive (.dResult (decResult s.straps.strictLen s.dec) (decFailureIndex s)) (clearDec s))

end Sys2Proof.Machine
end

