-- ==== Sys2Proof/Machine/Encoder.lean ====
section
/-! DEFINITION. The unit hamming_84_encoder: the nibble encoder `ENC4` and the encoder engine `EPUSH`, `EEND` (spec/41_encoder.md). -/

namespace Sys2Proof.Machine

/-- `enc4(n)`: the parity equations of R91 in the defining form of R92, `p_overall` the parity of the seven assembled bits. -/
def enc4 (n : Nibble) : Word8 :=
  let d1 := n.getMsbD 0
  let d2 := n.getMsbD 1
  let d3 := n.getMsbD 2
  let d4 := n.getMsbD 3
  let p1 := parity [d1, d2, d4]
  let p2 := parity [d1, d3, d4]
  let p3 := parity [d2, d3, d4]
  let pOverall := parity [p1, p2, d1, p3, d2, d3, d4]
  wordOf p1 p2 d1 p3 d2 d3 d4 pOverall

/-- `ENC4 n` (R92): drives `enc_c`, touches no register. -/
def execEnc4 (n : Nibble) (s : State) : Host.Outcome State Fault Refusal :=
  .next (drive (.encC (enc4 n)) s)

/-- One bit into the encoder's registers (R96): the fourth bit of a chunk appends its codeword and empties the fragment. -/
def pushEnc (b : Bit) (e : EncEngine) : EncEngine :=
  match e.frag ++ [b] with
  | [d1, d2, d3, d4] => { frag := [], acc := e.acc ++ wordBits (enc4 (nibbleOf d1 d2 d3 d4)) }
  | f => { e with frag := f }

/-- `EPUSH b` (R96): no result. -/
def execEpush (b : Bit) (s : State) : Host.Outcome State Fault Refusal :=
  .next (drive .none { s with enc := pushEnc b s.enc })

/-- The result of `EEND` (R97). -/
def encResult (strict : Bool) (e : EncEngine) : Result :=
  if strict && e.frag.length != 0 then .failure .malformedInput else .ok e.acc

/-- `EEND` (R97): delivers the result and clears the engine. -/
def execEend (s : State) : Host.Outcome State Fault Refusal :=
  .next (drive (.eResult (encResult s.straps.strictLen s.enc)) (clearEnc s))

end Sys2Proof.Machine
end

