-- ==== Sys2Proof/Machine/Reset.lean ====
section
/-! DEFINITION. `RESET` (spec/70_reset_and_hazards.md R210). -/

namespace Sys2Proof.Machine

/-- `RESET` (R210): every register to its reset value, no result; the straps, the ROM and the host's side are untouched. -/
def execReset (s : State) : Host.Outcome State Fault Refusal :=
  .next (drive .none (clearDec (clearEnc s)))

end Sys2Proof.Machine
end

