-- ==== Sys2Proof/Machine/Dispatch.lean ====
section
/-! DEFINITION. One arm per operation of R66 (spec/30_encoding.md). -/

namespace Sys2Proof.Machine

/-- What an operation does to the block: one atomic step (R46). -/
def exec (i : Instr) (s : State) : Host.Outcome State Fault Refusal :=
  match i with
  | .cbrd a => Sys2Proof.Machine.execCbrd a s
  | .enc4 n => Sys2Proof.Machine.execEnc4 n s
  | .epush b => Sys2Proof.Machine.execEpush b s
  | .eend => Sys2Proof.Machine.execEend s
  | .syn c => Sys2Proof.Machine.execSyn c s
  | .cls c => Sys2Proof.Machine.execCls c s
  | .dpush b => Sys2Proof.Machine.execDpush b s
  | .dend => Sys2Proof.Machine.execDend s
  | .reset => Sys2Proof.Machine.execReset s

end Sys2Proof.Machine
end

