-- ==== Sys2Proof/Machine/Step.lean ====
section
/-! DEFINITION. One step: the host's next transaction is issued, decoded and executed (spec/00_scope.md R6; spec/20_memory.md R46, R49). -/

namespace Sys2Proof.Machine

/-- "The block steps only when the host issues an operation" (R6): with nothing to issue nothing changes; otherwise the
next transaction leaves the host's list and its operation is executed. A transaction that issues no operation is refused
by name (log entries 1, 8). -/
def step (s : State) : Host.Outcome State Fault Refusal :=
  match s.pending with
  | [] => .next s
  | t :: rest =>
    match decode t with
    | .ok i => exec i { s with pending := rest }
    | .error why => .refused (.malformedTransaction why)

/-- The state with a table word as the next transaction to issue (log entry 9). A word that selects no port group issues
nothing, so the host's list is then empty. -/
def State.withFetchWord (s : State) (nbits w : Nat) : State :=
  match tableTransaction nbits w with
  | some t => { s with pending := t :: s.pending }
  | none => { s with pending := [] }

end Sys2Proof.Machine
end

