-- ==== Sys2Proof/Machine/Message.lean ====
section
/-! DEFINITION. The whole-message functions `encode` and `decode` (spec/41_encoder.md R98; spec/44_decoder.md R146), the pseudo-operations that realise them (spec/30_encoding.md R74), and the host issuing a list of operations. -/

namespace Sys2Proof.Machine

/-- `encode(bits)` (R98): the codeword of each complete chunk of 4 bits, in order; the tail is ignored. -/
def encodeMessage : BitString → BitString
  | d1 :: d2 :: d3 :: d4 :: rest => wordBits (enc4 (nibbleOf d1 d2 d3 d4)) ++ encodeMessage rest
  | _ => []

/-- `encode_strict(bits)` (R98). -/
def encodeStrict (bits : BitString) : Result :=
  if bits.length % 4 = 0 then .ok (encodeMessage bits) else .failure .malformedInput

/-- The loop of R146 with the output so far. -/
def decodeFrom (out : BitString) : BitString → Result
  | b0 :: b1 :: b2 :: b3 :: b4 :: b5 :: b6 :: b7 :: rest =>
    match classify (wordOf b0 b1 b2 b3 b4 b5 b6 b7) with
    | .clean n => decodeFrom (out ++ nibbleBits n) rest
    | .corrected n => decodeFrom (out ++ nibbleBits n) rest
    | .doubleError => .failure .doubleError
    | .tripleOrMoreError => .failure .tripleOrMoreError
  | _ => .ok out

/-- `decode(bits)` (R146). -/
def decodeMessage (bits : BitString) : Result :=
  decodeFrom [] bits

/-- `decode_strict(bits)` (R146): a failure found by the loop takes precedence (R189). -/
def decodeStrict (bits : BitString) : Result :=
  match decodeMessage bits with
  | .ok out => if bits.length % 8 = 0 then .ok out else .failure .malformedInput
  | .failure cause => .failure cause

/-- The diagnostic events of a decoder message from chunk index `j` on (R149, R195). -/
def decodeEvents (j : Nat) : BitString → List DiagEvent
  | b0 :: b1 :: b2 :: b3 :: b4 :: b5 :: b6 :: b7 :: rest =>
    match classify (wordOf b0 b1 b2 b3 b4 b5 b6 b7) with
    | .clean _ => decodeEvents (j + 1) rest
    | .corrected _ => { cls := .corrected, idx := j } :: decodeEvents (j + 1) rest
    | .doubleError => [{ cls := .doubleError, idx := j }]
    | .tripleOrMoreError => [{ cls := .tripleOrMoreError, idx := j }]
  | _ => []

/-- `encode` under a strap value (R99). -/
def encodeUnder (strict : Bool) (bits : BitString) : Result :=
  if strict then encodeStrict bits else .ok (encodeMessage bits)

/-- `decode` under a strap value (R149). -/
def decodeUnder (strict : Bool) (bits : BitString) : Result :=
  if strict then decodeStrict bits else decodeMessage bits

/-- `ENCODE bits` = `EPUSH* bits; EEND` (R73, R74). -/
def encodeOps (bits : BitString) : List Instr :=
  bits.map .epush ++ [.eend]

/-- `DECODE bits` = `DPUSH* bits; DEND` (R73, R74). -/
def decodeOps (bits : BitString) : List Instr :=
  bits.map .dpush ++ [.dend]

/-- `ENCBYTE B` = `ENCODE` of the 8 bits of `B`, most significant first (R43, R74, R170). -/
def encByteOps (byte : BitVec 8) : List Instr :=
  encodeOps (wordBits byte)

/-- The host issues these operations next, before anything it had still to issue. -/
def issue (ops : List Instr) (s : State) : State :=
  { s with pending := ops.map encode ++ s.pending }

/-- The bits a list of operations pushes into the encoder engine, in issue order (R49). -/
def encBitsOf : List Instr → BitString
  | [] => []
  | .epush b :: ops => b :: encBitsOf ops
  | _ :: ops => encBitsOf ops

/-- The bits a list of operations pushes into the decoder engine, in issue order (R49). -/
def decBitsOf : List Instr → BitString
  | [] => []
  | .dpush b :: ops => b :: decBitsOf ops
  | _ :: ops => decBitsOf ops

end Sys2Proof.Machine
end

