-- ==== Sys2Proof/Safety.lean ====
section
/-! DEFINITION. What holds in every state a run from reset reaches (spec/10_state.md R36), in the terms the statements use. -/

namespace Sys2Proof.Machine

/-- The invariant of R36, clause by clause. -/
abbrev State.Inv (s : State) : Prop :=
  s.enc.frag.length ≤ 3 ∧
  s.enc.acc.length % 8 = 0 ∧
  s.dec.frag.length ≤ 7 ∧
  s.dec.acc.length % 4 = 0 ∧
  (s.dec.status = .run → s.dec.acc.length = 4 * s.dec.idx) ∧
  (s.dec.status = .failed →
    s.dec.acc = [] ∧ s.dec.frag = [] ∧
    (s.dec.failClass = .double ∨ s.dec.failClass = .triple) ∧
    s.dec.failIdx = s.dec.idx) ∧
  (s.dec.status = .run → s.dec.failClass = .none) ∧
  s.dec.failClass ≠ .triple

/-- `enc_acc` holds codewords and nothing else (R23). -/
def State.EncAccHoldsCodewords (s : State) : Prop :=
  ∃ nibbles : List Nibble, s.enc.acc = nibbles.flatMap fun n => wordBits (enc4 n)

/-- The operations of the encoder engine (R31). -/
def isEncoderOp : Instr → Bool
  | .epush _ => true
  | .eend => true
  | .cbrd _ => false
  | .enc4 _ => false
  | .syn _ => false
  | .cls _ => false
  | .dpush _ => false
  | .dend => false
  | .reset => false

/-- The operations of the decoder engine (R31). -/
def isDecoderOp : Instr → Bool
  | .dpush _ => true
  | .dend => true
  | .cbrd _ => false
  | .enc4 _ => false
  | .epush _ => false
  | .eend => false
  | .syn _ => false
  | .cls _ => false
  | .reset => false

/-- The combinational operations, which touch no register (R31). -/
def isCombinational : Instr → Bool
  | .cbrd _ => true
  | .enc4 _ => true
  | .syn _ => true
  | .cls _ => true
  | .epush _ => false
  | .eend => false
  | .dpush _ => false
  | .dend => false
  | .reset => false

end Sys2Proof.Machine
end

