-- ==== Sys2Proof/Certificates/Slice0/Obligations.lean ====
section
/-! DEFINITION. The statements for the provers, each from a numbered rule of spec/. -/

open Sys2Proof Sys2Proof.Machine

/-! ### Encoding -/

/-- The operation a well-formed operation's own transaction issues is that operation, for every operation and every operand
(R34, R60, R66, R67). That the port group and the operand width select the operation is the model's choice (log entry 8). -/
def Obligations.DecodeOfEncode : Prop :=
  ∀ i : Instr, WellFormed i = true → decode (encode i) = .ok i

/-- A transaction that issues an operation is the one transaction that issues it: no bit of a transaction is dropped
(log entry 8). -/
def Obligations.EncodeOfDecode : Prop :=
  ∀ (t : Transaction) (i : Instr), decode t = .ok i → encode i = t

/-- The decoder rejects exactly the ill-formed transactions, each by the name of its port group and width, and accepts
every well-formed one (log entry 8). -/
def Obligations.DecodeRejectsByWidth : Prop :=
  ∀ t : Transaction,
    (t.wellFormed = false → decode t = .error (.operandWidth t.port t.operand.length)) ∧
    (t.wellFormed = true → ∃ i, decode t = .ok i)

/-- Operand words written out bit by bit from R60, R61, R72 issue the operations they stand for, on the port groups of R34
(R67: there is no command word). That a one-bit word on a stream port is a push and an empty word the end of the message is
the model's choice (log entry 8). -/
def Obligations.OperandWordsDecode : Prop :=
  decode { port := .rom, operand := [false, true, true, false] } = .ok (.cbrd 6) ∧
  decode { port := .nibbleEncoder, operand := [true, false, false, false] } = .ok (.enc4 8) ∧
  decode { port := .syndrome, operand := [true, true, false, true, true, true, false, false] }
    = .ok (.syn 0xDC) ∧
  decode { port := .classifier, operand := [true, false, false, false, true, true, true, false] }
    = .ok (.cls 0x8E) ∧
  decode { port := .encoderStream, operand := [true] } = .ok (.epush true) ∧
  decode { port := .encoderStream, operand := [] } = .ok .eend ∧
  decode { port := .decoderStream, operand := [false] } = .ok (.dpush false) ∧
  decode { port := .decoderStream, operand := [] } = .ok .dend ∧
  decode { port := .global, operand := [] } = .ok .reset

/-! ### The step -/

/-- A step issues the host's next transaction: when it decodes to an operation, the step is that operation's meaning on
the state whose host list has lost that transaction. The host list is the model's own field (log entry 1). -/
def Obligations.StepRunsTheDecodedOperation : Prop :=
  ∀ (s : State) (tr : Transaction) (rest : List Transaction) (i : Instr),
    s.pending = tr :: rest → decode tr = .ok i → WellFormed i = true →
      step s = exec i { s with pending := rest }

/-- The block steps only when the host issues an operation (R6), and a step is refused only for a transaction that issues
none; no step faults (log entries 1, 8, 15). -/
def Obligations.StepStopsOnlyOnIllFormedTransactions : Prop :=
  ∀ s : State,
    (s.pending = [] → step s = .next s) ∧
    (∀ f, step s ≠ .fault f) ∧
    ((∃ r, step s = .refused r) ↔
      ∃ tr rest, s.pending = tr :: rest ∧ tr.wellFormed = false)

/-- Every operation completes in every state, whatever it finds there, and touches neither the straps nor the host's list
(R222, R223, R32). -/
def Obligations.EveryOperationCompletes : Prop :=
  ∀ (i : Instr) (s : State), ∃ t, exec i s = .next t ∧ t.straps = s.straps ∧ t.pending = s.pending

/-! ### The codebook ROM -/

/-- `CBRD a` drives `CB[a]` and changes nothing else; the first and last entries and the example of the rule (R80). -/
def Obligations.CbrdDrivesTheEntry : Prop :=
  (∀ (a : Nibble) (s : State), exec (.cbrd a) s = .next { s with out := .cbData (romRead a) }) ∧
  (∀ s : State,
    exec (.cbrd 0) s = .next { s with out := .cbData 0b00000000 } ∧
    exec (.cbrd 6) s = .next { s with out := .cbData 0b11001100 } ∧
    exec (.cbrd 15) s = .next { s with out := .cbData 0b11111111 })

/-- For every nibble `ENC4` drives what `CBRD` drives for its value (R83). -/
def Obligations.CodebookSelfConsistent : Prop :=
  ∀ (n : Nibble) (s : State), ∃ w,
    exec (.enc4 n) s = .next { s with out := .encC w } ∧
    exec (.cbrd n) s = .next { s with out := .cbData w }

/-- The properties (a) to (f) of the table (R84). -/
def Obligations.CodebookTableProperties : Prop :=
  codebook.length = 16 ∧ codebook.Nodup ∧
  (∀ a : Nibble, dataOf (romRead a) = a) ∧
  (∀ a b : Nibble, a ≠ b →
    4 ≤ hdist (romRead a) (romRead b) ∧
    hdist (romRead a) (romRead b) = if a.toNat + b.toNat = 15 then 8 else 4) ∧
  (∀ a : Nibble, parity (wordBits (romRead a)) = false) ∧
  (∀ a b : Nibble, romRead a ^^^ romRead b = romRead (a ^^^ b)) ∧
  (∀ a : Nibble, ~~~ romRead a = romRead (15 - a))

/-! ### The nibble encoder -/

/-- `ENC4 n` drives the codeword whose bits are `p1 p2 d1 p3 d2 d3 d4 p_overall` with the parities of R91, and changes
nothing else (R92). -/
def Obligations.Enc4DrivesTheParityEquations : Prop :=
  ∀ (d1 d2 d3 d4 : Bit) (s : State), ∃ w : Word8,
    exec (.enc4 (nibbleOf d1 d2 d3 d4)) s = .next { s with out := .encC w } ∧
    wordBits w =
      [parity [d1, d2, d4], parity [d1, d3, d4], d1, parity [d2, d3, d4], d2, d3, d4,
       parity [parity [d1, d2, d4], parity [d1, d3, d4], d1, parity [d2, d3, d4], d2, d3, d4]]

/-- The equivalent forms of the equations with exclusive-or (R93): for every nibble the word `ENC4` drives is `enc4` of it,
and its check bits are the exclusive-ors of their data bits, its last bit the exclusive-or of the other seven and also the
closed form `d1 xor d2 xor d3`. -/
def Obligations.EncoderEquationsAsXor : Prop :=
  ∀ (d1 d2 d3 d4 : Bit) (s : State), ∃ p1 p2 p3 pOverall : Bit,
    exec (.enc4 (nibbleOf d1 d2 d3 d4)) s
      = .next { s with out := .encC (enc4 (nibbleOf d1 d2 d3 d4)) } ∧
    wordBits (enc4 (nibbleOf d1 d2 d3 d4)) = [p1, p2, d1, p3, d2, d3, d4, pOverall] ∧
    p1 = (d1 ^^ d2 ^^ d4) ∧
    p2 = (d1 ^^ d3 ^^ d4) ∧
    p3 = (d2 ^^ d3 ^^ d4) ∧
    pOverall = (p1 ^^ p2 ^^ d1 ^^ p3 ^^ d2 ^^ d3 ^^ d4) ∧
    pOverall = (d1 ^^ d2 ^^ d3)

/-- The properties (a) to (e) of `enc4` (R94). -/
def Obligations.Enc4Properties : Prop :=
  (∀ n : Nibble, enc4 n = romRead n) ∧
  (∀ n : Nibble, dataOf (enc4 n) = n) ∧
  (∀ a b : Nibble, enc4 a = enc4 b → a = b) ∧
  (∀ a b : Nibble, enc4 (a ^^^ b) = enc4 a ^^^ enc4 b) ∧
  (∀ n : Nibble, popcount (wordBits (enc4 n)) % 2 = 0)

/-! ### The syndrome calculator -/

/-- `SYN c` drives `S = 4*s3 + 2*s2 + s1` and `sp` by the check equations on the received bits, and changes nothing else
(R111). -/
def Obligations.SynDrivesTheChecks : Prop :=
  ∀ (c0 c1 c2 c3 c4 c5 c6 c7 : Bit) (s : State), ∃ r : Syndrome,
    exec (.syn (wordOf c0 c1 c2 c3 c4 c5 c6 c7)) s = .next { s with out := .syn r } ∧
    r.S.toNat = 4 * (parity [c3, c4, c5, c6]).toNat + 2 * (parity [c1, c2, c5, c6]).toNat
      + (parity [c0, c2, c4, c6]).toNat ∧
    r.sp = parity [c0, c1, c2, c3, c4, c5, c6, c7]

/-- The syndrome result is zero on the 16 codewords and on no other word (R112). -/
def Obligations.SyndromeZeroExactlyOnCodewords : Prop :=
  ∀ c : Word8, syndrome c = { S := 0, sp := false } ↔ ∃ a : Nibble, c = romRead a

/-- The result depends only on the error pattern (R113); one flip at `i` gives the table of R114; two distinct flips give
`sp = 0` and the exclusive-or of the two single-flip syndromes, which is not 0, and in general `sp` is the parity of the
number of flipped bits (R115). -/
def Obligations.SyndromeOfFlippedCodewords : Prop :=
  (∀ (a : Nibble) (e : Word8), syndrome (romRead a ^^^ e) = syndrome e) ∧
  (∀ (a : Nibble) (i : Fin 8),
    (syndrome (flip (romRead a) i)).S.toNat = (if i.val = 7 then 0 else i.val + 1) ∧
    (syndrome (flip (romRead a) i)).sp = true) ∧
  (∀ (a : Nibble) (i j : Fin 8), i ≠ j →
    (syndrome (flip (flip (romRead a) i) j)).sp = false ∧
    (syndrome (flip (flip (romRead a) i) j)).S ≠ 0 ∧
    (syndrome (flip (flip (romRead a) i) j)).S
      = (syndrome (flip (romRead a) i)).S ^^^ (syndrome (flip (romRead a) j)).S) ∧
  (∀ (a : Nibble) (e : Word8), (syndrome (romRead a ^^^ e)).sp = parity (wordBits e))

/-- The error position function: for every candidate with `sp = 1`, flipping `errpos(S)` gives a codeword, the only one
at distance 1 (R116). -/
def Obligations.ErrorPositionFindsTheCodeword : Prop :=
  (∀ S : BitVec 3, (errpos S).val = if S = 0 then 7 else S.toNat - 1) ∧
  (∀ c : Word8, (syndrome c).sp = true →
    ∃ a : Nibble, flip c (errpos (syndrome c).S) = romRead a ∧
      ∀ b : Nibble, hdist c (romRead b) = 1 ↔ b = a)

/-- What the syndrome result says about a candidate: its distances to the codebook (R117). -/
def Obligations.SyndromeVerdicts : Prop :=
  ∀ c : Word8,
    ((syndrome c).sp = false → (syndrome c).S = 0 → ∃ a : Nibble, c = romRead a) ∧
    ((syndrome c).sp = true →
      (codebook.filter fun w => hdist c w = 1).length = 1 ∧
      ∃ a : Nibble, c = flip (romRead a) (errpos (syndrome c).S)) ∧
    ((syndrome c).sp = false → (syndrome c).S ≠ 0 →
      (codebook.filter fun w => hdist c w = 2).length = 4 ∧
      (codebook.filter fun w => hdist c w ≤ 1).length = 0)

/-! ### The classifier -/

/-- `CLS c` returns on the first entry in table order within distance 2, by that entry's distance, and changes nothing but
the classifier's output (R125, R126, R129). -/
def Obligations.ClsReturnsOnTheFirstMatch : Prop :=
  ∀ (c : Word8) (s : State), ∃ r : ErrorClass,
    exec (.cls c) s = .next { s with out := .cls r } ∧
    ((∃ k : Nibble, (∀ j : Nibble, j < k → 2 < hdist c (romRead j)) ∧
        ((hdist c (romRead k) = 0 ∧ r = .clean (dataOf c)) ∨
         (hdist c (romRead k) = 1 ∧ r = .corrected (dataOf (romRead k))) ∨
         (hdist c (romRead k) = 2 ∧ r = .doubleError))) ∨
     ((∀ k : Nibble, 2 < hdist c (romRead k)) ∧ r = .tripleOrMoreError))

/-- `TripleOrMoreError` is unreachable with the ROM of R82: for every candidate `CLS` completes with another class (R134). -/
def Obligations.TripleOrMoreErrorUnreachable : Prop :=
  ∀ (c : Word8) (s : State), ∃ r : ErrorClass,
    exec (.cls c) s = .next { s with out := .cls r } ∧ r ≠ .tripleOrMoreError

/-- The partition of the 256 candidates: 16 `Clean`, 128 `Corrected`, 112 `DoubleError`, none `TripleOrMoreError`; a
candidate is `Corrected` exactly when its number of 1-bits is odd (R133). -/
def Obligations.CandidatePartition : Prop :=
  (((List.range 256).filter fun n => classCode (classify (BitVec.ofNat 8 n)) = 0).length = 16) ∧
  (((List.range 256).filter fun n => classCode (classify (BitVec.ofNat 8 n)) = 1).length = 128) ∧
  (((List.range 256).filter fun n => classCode (classify (BitVec.ofNat 8 n)) = 2).length = 112) ∧
  (∀ c : Word8, classCode (classify c) ≠ 3) ∧
  (∀ c : Word8, classCode (classify c) = 0 ↔ ∃ a : Nibble, hdist c (romRead a) = 0) ∧
  (∀ c : Word8, classCode (classify c) = 1 ↔ popcount (wordBits c) % 2 = 1) ∧
  (∀ c : Word8, classCode (classify c) = 1 → (codebook.filter fun w => hdist c w = 1).length = 1) ∧
  (∀ c : Word8, classCode (classify c) = 2 → (codebook.filter fun w => hdist c w = 2).length = 4)

/-- Nearest match gives what the first-match scan gives, whichever nearest entry `k` is picked (R135 (c)). -/
def Obligations.NearestMatchAgrees : Prop :=
  ∀ (c : Word8) (k : Nibble) (s : State),
    (∀ j : Nibble, hdist c (romRead k) ≤ hdist c (romRead j)) →
    exec (.cls c) s = .next { s with
      out := .cls
        (if hdist c (romRead k) = 0 then .clean (dataOf c)
         else if hdist c (romRead k) = 1 then .corrected (dataOf (romRead k))
         else if hdist c (romRead k) = 2 then .doubleError
         else .tripleOrMoreError) }

/-- The syndrome path gives what the ROM scan gives: what `CLS c` drives is computed from what `SYN c` drives (R136). -/
def Obligations.SyndromePathAgrees : Prop :=
  ∀ (c : Word8) (s : State), ∃ (r : Syndrome) (k : ErrorClass),
    exec (.syn c) s = .next { s with out := .syn r } ∧
    exec (.cls c) s = .next { s with out := .cls k } ∧
    (r.sp = false → r.S = 0 → k = .clean (dataOf c)) ∧
    (r.sp = true → k = .corrected (dataOf (flip c (errpos r.S)))) ∧
    (r.sp = false → r.S ≠ 0 → k = .doubleError)

/-- Single-error correction and double-error detection, for every codeword and every position or pair (R137). -/
def Obligations.SingleCorrectedDoubleDetected : Prop :=
  (∀ (a : Nibble) (i : Fin 8) (s : State),
    exec (.cls (flip (romRead a) i)) s = .next { s with out := .cls (.corrected a) }) ∧
  (∀ (a : Nibble) (i j : Fin 8) (s : State), i ≠ j →
    exec (.cls (flip (flip (romRead a) i) j)) s = .next { s with out := .cls .doubleError })

/-- More than two flips: three, five or seven always give `Corrected` with a wrong nibble; four give another codeword's
`Clean` for 14 of the 70 position sets and `DoubleError` for the other 56; six give `DoubleError`; eight give `Clean` with
the complement's nibble (R138). -/
def Obligations.MoreThanTwoFlips : Prop :=
  (∀ (a : Nibble) (e : Word8),
    (popcount (wordBits e) = 3 ∨ popcount (wordBits e) = 5 ∨ popcount (wordBits e) = 7) →
      ∃ n : Nibble, n ≠ a ∧ classify (romRead a ^^^ e) = .corrected n) ∧
  (∀ (a : Nibble) (e : Word8), popcount (wordBits e) = 4 →
    classify (romRead a ^^^ e) = .doubleError ∨
      ∃ n : Nibble, n ≠ a ∧ classify (romRead a ^^^ e) = .clean n) ∧
  (∀ a : Nibble,
    (((List.range 256).map (BitVec.ofNat 8)).filter fun e =>
      popcount (wordBits e) = 4 ∧ classCode (classify (romRead a ^^^ e)) = 0).length = 14 ∧
    (((List.range 256).map (BitVec.ofNat 8)).filter fun e =>
      popcount (wordBits e) = 4 ∧ classCode (classify (romRead a ^^^ e)) = 2).length = 56) ∧
  (∀ (a : Nibble) (e : Word8), popcount (wordBits e) = 6 →
    classify (romRead a ^^^ e) = .doubleError) ∧
  (∀ (a : Nibble) (e : Word8), popcount (wordBits e) = 8 →
    classify (romRead a ^^^ e) = .clean (15 - a))

/-- A combinational operation drives its output and changes nothing else, and what it drives depends on its operand alone
(R31, R38, R48 (b)). -/
def Obligations.CombinationalOperationsTouchNoRegister : Prop :=
  ∀ i : Instr, isCombinational i = true →
    ∃ o : Output, ∀ s : State, exec i s = .next { s with out := o }

/-! ### The encoder engine -/

/-- `EPUSH b`: a bit that does not complete a chunk is appended to the fragment; the fourth bit of a chunk appends the
chunk's codeword to the accumulator and empties the fragment; nothing else changes and there is no result (R96). -/
def Obligations.EpushFollowsTheRule : Prop :=
  (∀ (b : Bit) (s : State), (s.enc.frag ++ [b]).length ≠ 4 →
    exec (.epush b) s = .next { s with
      enc := { frag := s.enc.frag ++ [b], acc := s.enc.acc }, out := .none }) ∧
  (∀ (d1 d2 d3 d4 : Bit) (s : State), s.enc.frag ++ [d4] = [d1, d2, d3, d4] →
    exec (.epush d4) s = .next { s with
      enc := { frag := [], acc := s.enc.acc ++ wordBits (enc4 (nibbleOf d1 d2 d3 d4)) },
      out := .none })

/-- `EEND`: `Failure(MalformedInput)` when `STRICT_LEN` is set and a fragment is pending, otherwise `Ok(enc_acc)`; both
encoder registers are emptied; nothing else changes (R97). -/
def Obligations.EendDeliversAndClears : Prop :=
  ∀ s : State,
    (s.straps.strictLen = true → s.enc.frag ≠ [] →
      exec .eend s = .next { s with
        enc := { frag := [], acc := [] }, out := .eResult (.failure .malformedInput) }) ∧
    ((s.straps.strictLen = false ∨ s.enc.frag = []) →
      exec .eend s = .next { s with
        enc := { frag := [], acc := [] }, out := .eResult (.ok s.enc.acc) })

/-- The encoder engine realises `encode`: from the engine's reset state, whatever other operations of the decoder engine
or the combinational ports the host issues in between, `EEND` delivers `encode` (or `encode_strict`) of the pushed bits and
leaves the engine in its reset state (R98, R99). -/
def Obligations.EncoderEngineRealisesEncode : Prop :=
  ∀ (ops : List Instr) (s : State),
    (∀ i ∈ ops, i ≠ .eend ∧ i ≠ .reset) → s.enc = State.reset.enc →
    ∃ t, core.run (ops.length + 1) (issue (ops ++ [.eend]) s) = .next t ∧
      t.out = .eResult
        (if s.straps.strictLen = true then
          (if (encBitsOf ops).length % 4 = 0 then .ok (encodeMessage (encBitsOf ops))
           else .failure .malformedInput)
         else .ok (encodeMessage (encBitsOf ops))) ∧
      t.enc = State.reset.enc ∧ t.pending = s.pending

/-- The pseudo-operation `ENCODE bits` from an encoder engine in its reset state, and the empty message (R74, R102). -/
def Obligations.EncodePseudoOperation : Prop :=
  (∀ (bits : BitString) (s : State), s.enc = State.reset.enc →
    core.run (bits.length + 1) (issue (encodeOps bits) s)
      = .next { s with out := .eResult (encodeUnder s.straps.strictLen bits) }) ∧
  (∀ strict : Bool, encodeUnder strict [] = .ok [])

/-- The length and position laws of `encode` (R100). -/
def Obligations.EncodeLengthAndPositionLaws : Prop :=
  (∀ bits : BitString, (encodeMessage bits).length = 8 * (bits.length / 4)) ∧
  (∀ (bits : BitString) (i : Nat), 4 * i + 4 ≤ bits.length →
    ((encodeMessage bits).drop (8 * i)).take 8 = encodeMessage ((bits.drop (4 * i)).take 4)) ∧
  (∀ a b : BitString, a.length % 4 = 0 →
    encodeMessage (a ++ b) = encodeMessage a ++ encodeMessage b) ∧
  (∀ bytes : List (BitVec 8),
    (encodeMessage (bytes.flatMap wordBits)).length = 16 * bytes.length)

/-- The 16 bits for one byte are the codeword of its high nibble and then that of its low nibble (R43, R44). -/
def Obligations.ByteYieldsTwoCodewords : Prop :=
  ∀ byte : BitVec 8,
    encodeMessage (wordBits byte)
      = wordBits (enc4 (byte.extractLsb' 4 4)) ++ wordBits (enc4 (byte.extractLsb' 0 4))

/-! ### The decoder engine -/

/-- `DPUSH b`: ignored while `FAILED`; while `RUN` a bit that does not complete a chunk is appended to the fragment; the
eighth bit empties the fragment and acts by the class of the candidate, with the failure entry of R187 for an uncorrectable
class and a diagnostic event, where `DIAG = true`, for every class but `Clean` (R147, R187). The diagnostic registers are
stated as the rule's pseudocode writes them; a device with `DIAG = false` may omit them (R27, log entry 12). -/
def Obligations.DpushFollowsTheRule : Prop :=
  (∀ (b : Bit) (s : State), s.dec.status = .failed →
    exec (.dpush b) s = .next { s with out := .none }) ∧
  (∀ (b : Bit) (s : State), s.dec.status = .run → s.dec.frag.length < 7 →
    exec (.dpush b) s = .next { s with
      dec := { s.dec with frag := s.dec.frag ++ [b] }, out := .none }) ∧
  (∀ (b0 b1 b2 b3 b4 b5 b6 b7 : Bit) (s : State),
    s.dec.status = .run → s.dec.frag = [b0, b1, b2, b3, b4, b5, b6] →
    exec (.dpush b7) s = .next
      (match classify (wordOf b0 b1 b2 b3 b4 b5 b6 b7) with
       | .clean n => { s with
           dec := { s.dec with
             frag := [], acc := s.dec.acc ++ nibbleBits n, idx := s.dec.idx + 1 },
           out := .none }
       | .corrected n => { s with
           dec := { s.dec with
             frag := [], acc := s.dec.acc ++ nibbleBits n, idx := s.dec.idx + 1 },
           out := if s.straps.diag = true then .diag { cls := .corrected, idx := s.dec.idx }
             else .none,
           diagLog := if s.straps.diag = true then
               s.diagLog ++ [{ cls := .corrected, idx := s.dec.idx }]
             else s.diagLog }
       | .doubleError => { s with
           dec := { s.dec with
             frag := [], acc := [], status := .failed, failClass := .double,
             failIdx := s.dec.idx },
           out := if s.straps.diag = true then .diag { cls := .doubleError, idx := s.dec.idx }
             else .none,
           diagLog := if s.straps.diag = true then
               s.diagLog ++ [{ cls := .doubleError, idx := s.dec.idx }]
             else s.diagLog }
       | .tripleOrMoreError => { s with
           dec := { s.dec with
             frag := [], acc := [], status := .failed, failClass := .triple,
             failIdx := s.dec.idx },
           out := if s.straps.diag = true then
               .diag { cls := .tripleOrMoreError, idx := s.dec.idx }
             else .none,
           diagLog := if s.straps.diag = true then
               s.diagLog ++ [{ cls := .tripleOrMoreError, idx := s.dec.idx }]
             else s.diagLog }))

/-- When a failure is taken: the push of the eighth bit of a candidate with an even number of 1-bits that is no codeword
makes the decoder `FAILED` with cause `DoubleError`, clears the accumulator and the fragment, and leaves the encoder engine
alone; no other completed chunk fails the message; the condition is `sp = 0` and `S != 0` (R181). What the decoder's
registers become is R147's and R187's; the diagnostic registers are stated as those rules write them whatever `DIAG` is, which
for `DIAG = false` is the model's choice (log entry 12): R27 has such a device omit `dec_idx` and `dec_fail_idx` and lets it
merge `dec_fail_class` into a failure without a cause. -/
def Obligations.DoubleErrorTakenOnEvenNonCodewords : Prop :=
  (∀ b0 b1 b2 b3 b4 b5 b6 b7 : Bit,
    (popcount [b0, b1, b2, b3, b4, b5, b6, b7] % 2 = 0 ∧ wordOf b0 b1 b2 b3 b4 b5 b6 b7 ∉ codebook) ↔
    ((syndrome (wordOf b0 b1 b2 b3 b4 b5 b6 b7)).sp = false ∧
      (syndrome (wordOf b0 b1 b2 b3 b4 b5 b6 b7)).S ≠ 0)) ∧
  ∀ (b0 b1 b2 b3 b4 b5 b6 b7 : Bit) (s : State),
    s.dec.status = .run → s.dec.frag = [b0, b1, b2, b3, b4, b5, b6] →
    ∃ t, exec (.dpush b7) s = .next t ∧ t.enc = s.enc ∧ t.dec.frag = [] ∧
      (if popcount [b0, b1, b2, b3, b4, b5, b6, b7] % 2 = 0 ∧
          wordOf b0 b1 b2 b3 b4 b5 b6 b7 ∉ codebook then
        t.dec.status = .failed ∧ t.dec.failClass = .double ∧ t.dec.failIdx = s.dec.idx ∧
          t.dec.idx = s.dec.idx ∧ t.dec.acc = []
       else
        t.dec.status = .run ∧ t.dec.failClass = s.dec.failClass ∧ t.dec.idx = s.dec.idx + 1 ∧
          t.dec.acc.length = s.dec.acc.length + 4)

/-- `DEND`: a failed message reports the cause its class records, before any pending fragment is looked at; otherwise
`Failure(MalformedInput)` when `STRICT_LEN` is set and a fragment is pending, else `Ok(dec_acc)`; every decoder register
returns to its reset value and nothing else changes (R148, R189 (c)); with `DIAG = true` a failed message's result carries
the chunk index (R34). That every other result carries no index is the model's inference (log entry 16; R184: nothing is
recorded for `MalformedInput`). The cause is stated as R148 gives it; a device with `DIAG = false` may merge it into a failure
without a cause (R27, log entry 12). -/
def Obligations.DendReportsAndClears : Prop :=
  ∀ s : State,
    (s.dec.status = .failed → s.dec.failClass = .double →
      exec .dend s = .next { s with
        dec := State.reset.dec,
        out := .dResult (.failure .doubleError)
          (if s.straps.diag = true then some s.dec.failIdx else none) }) ∧
    (s.dec.status = .failed → s.dec.failClass = .triple →
      exec .dend s = .next { s with
        dec := State.reset.dec,
        out := .dResult (.failure .tripleOrMoreError)
          (if s.straps.diag = true then some s.dec.failIdx else none) }) ∧
    (s.dec.status = .run → s.straps.strictLen = true → s.dec.frag ≠ [] →
      exec .dend s = .next { s with
        dec := State.reset.dec, out := .dResult (.failure .malformedInput) none }) ∧
    (s.dec.status = .run → (s.straps.strictLen = false ∨ s.dec.frag = []) →
      exec .dend s = .next { s with
        dec := State.reset.dec, out := .dResult (.ok s.dec.acc) none })

/-- The decoder engine realises `decode`: from the engine's reset state, whatever other operations of the encoder engine
or the combinational ports the host issues in between, `DEND` delivers `decode` (or `decode_strict`) of the pushed bits,
leaves the engine in its reset state, and the diagnostic events on the way are those of R149 (R146, R149). -/
def Obligations.DecoderEngineRealisesDecode : Prop :=
  ∀ (ops : List Instr) (s : State),
    (∀ i ∈ ops, i ≠ .dend ∧ i ≠ .reset) → s.dec = State.reset.dec →
    ∃ t k, core.run (ops.length + 1) (issue (ops ++ [.dend]) s) = .next t ∧
      t.out = .dResult
        (if s.straps.strictLen = true then decodeStrict (decBitsOf ops)
         else decodeMessage (decBitsOf ops)) k ∧
      t.dec = State.reset.dec ∧ t.pending = s.pending ∧
      t.diagLog = s.diagLog ++
        (if s.straps.diag = true then decodeEvents 0 (decBitsOf ops) else [])

/-- The strict function in terms of the plain one: a failure found by the loop takes precedence over the length (R146,
R189 (c)); and the empty message is a success (R156). -/
def Obligations.StrictDecodePrecedence : Prop :=
  (∀ (bits : BitString) (cause : Cause),
    decodeMessage bits = .failure cause → decodeStrict bits = .failure cause) ∧
  (∀ bits out : BitString, decodeMessage bits = .ok out →
    decodeStrict bits
      = if bits.length % 8 = 0 then .ok out else .failure .malformedInput) ∧
  decodeMessage [] = .ok [] ∧ decodeStrict [] = .ok []

/-- The length and position laws of `decode` (R150). -/
def Obligations.DecodeLengthAndPositionLaws : Prop :=
  (∀ bits out : BitString, decodeMessage bits = .ok out →
    out.length = 4 * (bits.length / 8) ∧
    ∀ j : Nat, 8 * j + 8 ≤ bits.length →
      decodeMessage ((bits.drop (8 * j)).take 8) = .ok ((out.drop (4 * j)).take 4)) ∧
  (∀ a b : BitString, a.length % 8 = 0 →
    decodeMessage (a ++ b) =
      match decodeMessage a with
      | .failure cause => .failure cause
      | .ok outA =>
        match decodeMessage b with
        | .ok outB => .ok (outA ++ outB)
        | .failure cause => .failure cause)

/-- Round trip: decoding an encoded message gives back its complete nibbles (R152). -/
def Obligations.DecodeOfEncodedMessage : Prop :=
  ∀ m : BitString, decodeMessage (encodeMessage m) = .ok (m.take (4 * (m.length / 4)))

/-- Correction through the stream: a message of nibbles, each codeword hit by an error pattern of at most one flipped bit,
decodes to the nibbles (R153, first sentence). -/
def Obligations.OneFlipPerChunkIsCorrected : Prop :=
  ∀ chunks : List (Nibble × Word8),
    (∀ p ∈ chunks, popcount (wordBits p.2) ≤ 1) →
    decodeMessage (chunks.flatMap fun p => wordBits (enc4 p.1 ^^^ p.2))
      = .ok (chunks.flatMap fun p => nibbleBits p.1)

/-- Fail fast: chunks with at most one flipped bit each, then one with exactly two, then anything, give
`Failure(DoubleError)` and no partial result, under either strap value (R151, R153). -/
def Obligations.FailFastOnDoubleCorruptedChunk : Prop :=
  ∀ (before : List (Nibble × Word8)) (n : Nibble) (e : Word8) (after : BitString) (strict : Bool),
    (∀ p ∈ before, popcount (wordBits p.2) ≤ 1) → popcount (wordBits e) = 2 →
    decodeUnder strict
        ((before.flatMap fun p => wordBits (enc4 p.1 ^^^ p.2)) ++ wordBits (enc4 n ^^^ e) ++ after)
      = .failure .doubleError

/-- The only way out of `FAILED` is `DEND` or `RESET`, and after either the decoder is in its reset state (R190). -/
def Obligations.OnlyDendAndResetLeaveFailed : Prop :=
  (∀ (i : Instr) (s t : State), exec i s = .next t →
    s.dec.status = .failed → t.dec.status = .run → i = .dend ∨ i = .reset) ∧
  (∀ s : State, ∃ t, exec .dend s = .next t ∧ t.dec = State.reset.dec) ∧
  (∀ s : State, ∃ t, exec .reset s = .next t ∧ t.dec = State.reset.dec)

/-- The decoder status port shows `dec_status` always and the diagnostic registers only where `DIAG = true` (R32, R34). -/
def Obligations.StatusPortShowsTheDecoder : Prop :=
  ∀ s : State,
    (statusPort s).status = s.dec.status ∧
    (s.straps.diag = true → (statusPort s).diag = some
      { failClass := s.dec.failClass, failIdx := s.dec.failIdx, idx := s.dec.idx }) ∧
    (s.straps.diag = false → (statusPort s).diag = none)

/-! ### Reset -/

/-- `RESET` writes every register of R20 to its reset value, gives no result and touches no strap (R210, R35). That it
leaves the diagnostic log as it was and the host's list too is the model's choice: both are fields of its own (log entries 3
and 1; `out`, emptied here, is entry 2). -/
def Obligations.ResetWritesEveryRegister : Prop :=
  ∀ s : State, exec .reset s = .next { s with
    enc := { frag := [], acc := [] },
    dec := { frag := [], acc := [], status := .run, failClass := .none, idx := 0, failIdx := 0 },
    out := .none }

/-- The state after reset holds the reset values of R20 and R35. -/
def Obligations.ResetStateHoldsResetValues : Prop :=
  State.reset.enc.frag = [] ∧ State.reset.enc.acc = [] ∧
  State.reset.dec.frag = [] ∧ State.reset.dec.acc = [] ∧
  State.reset.dec.status = .run ∧ State.reset.dec.failClass = .none ∧
  State.reset.dec.idx = 0 ∧ State.reset.dec.failIdx = 0 ∧
  State.reset.straps.strictLen = false

/-! ### Invariants -/

/-- The invariant of R36 holds at reset. -/
def Obligations.ResetMeetsInv : Prop :=
  State.reset.Inv

/-- Every step keeps the invariant of R36, from every state that meets it. -/
def Obligations.StepKeepsInv : Prop :=
  ∀ s t : State, s.Inv → step s = .next t → t.Inv

/-- Every state reachable from reset meets the invariant of R36, whatever the straps and whatever transactions the host
issues, and in it `dec_fail_class` is not `TRIPLE`. -/
def Obligations.ReachableStatesMeetInv : Prop :=
  ∀ (straps : Straps) (host : List Transaction) (k : Nat) (t : State),
    core.run k { State.reset with straps := straps, pending := host } = .next t → t.Inv

/-- Every step keeps the encoder accumulator a concatenation of codewords (R23, R90). -/
def Obligations.StepKeepsEncAccCodewords : Prop :=
  ∀ s t : State, s.EncAccHoldsCodewords → step s = .next t → t.EncAccHoldsCodewords

/-- The straps never change (R32, R223), and no step but one of the decoder engine's emits a diagnostic event (R195). That
`RESET` does not clear the log of emitted events is the model's choice (log entry 3). -/
def Obligations.StepKeepsStrapsAndLog : Prop :=
  ∀ s t : State, step s = .next t →
    t.straps = s.straps ∧
    (t.diagLog ≠ s.diagLog →
      s.straps.diag = true ∧ s.dec.status = .run ∧
      ∃ (b : Bit) (rest : List Transaction) (ev : DiagEvent),
        s.pending = encode (.dpush b) :: rest ∧ ev.idx = s.dec.idx ∧
        t.diagLog = s.diagLog ++ [ev])

/-! ### Frames and isolation -/

/-- An encoder operation leaves the decoder engine, the straps, the diagnostic log and the host's list as they were (R31). -/
def Obligations.EncoderOperationsFrame : Prop :=
  ∀ (i : Instr) (s t : State), isEncoderOp i = true → exec i s = .next t →
    t.dec = s.dec ∧ t.straps = s.straps ∧ t.diagLog = s.diagLog ∧ t.pending = s.pending

/-- A decoder operation leaves the encoder engine, the straps and the host's list as they were (R31). -/
def Obligations.DecoderOperationsFrame : Prop :=
  ∀ (i : Instr) (s t : State), isDecoderOp i = true → exec i s = .next t →
    t.enc = s.enc ∧ t.straps = s.straps ∧ t.pending = s.pending

/-- What an encoder operation does to the encoder and drives depends on the encoder's registers and the straps alone; what a
decoder operation does to the decoder, drives and emits depends on the decoder's registers and the straps alone (R31). -/
def Obligations.EnginesAreIsolated : Prop :=
  (∀ (i : Instr) (s s' t t' : State), isEncoderOp i = true →
    s.enc = s'.enc → s.straps = s'.straps → exec i s = .next t → exec i s' = .next t' →
      t.enc = t'.enc ∧ t.out = t'.out) ∧
  (∀ (i : Instr) (s s' t t' : State), isDecoderOp i = true →
    s.dec = s'.dec → s.straps = s'.straps → exec i s = .next t → exec i s' = .next t' →
      t.dec = t'.dec ∧ t.out = t'.out ∧
      ∃ evs, t.diagLog = s.diagLog ++ evs ∧ t'.diagLog = s'.diagLog ++ evs)

/-- Operations of the two engines commute: in either order both engines, the straps, the diagnostic log and the host's list
end the same (R31, R49). -/
def Obligations.EngineOperationsCommute : Prop :=
  ∀ (i j : Instr) (s : State), isEncoderOp i = true → isDecoderOp j = true →
    ∃ a b ab ba, exec i s = .next a ∧ exec j a = .next ab ∧
      exec j s = .next b ∧ exec i b = .next ba ∧
      ab.enc = ba.enc ∧ ab.dec = ba.dec ∧ ab.straps = ba.straps ∧
      ab.diagLog = ba.diagLog ∧ ab.pending = ba.pending

/-- No result depends on `DIAG`: whatever the value of the strap, `EEND` and `DEND` deliver the same result (R195, R14), and
every operation leaves the same registers. Of the diagnostic registers `dec_idx`, `dec_fail_class` and `dec_fail_idx` this is
the model's choice (log entry 12): R195 has a device with `DIAG = false` omit them, where R27 lets it merge
`dec_fail_class` into a failure without a cause. -/
def Obligations.ResultsDoNotDependOnDiag : Prop :=
  ∀ (i : Instr) (s : State) (d : Bool), ∃ t t',
    exec i s = .next t ∧
    exec i { s with straps := { s.straps with diag := d } } = .next t' ∧
    t.enc = t'.enc ∧ t.dec = t'.dec ∧
    (i = .eend → ∃ r, t.out = .eResult r ∧ t'.out = .eResult r) ∧
    (i = .dend → ∃ r k k', t.out = .dResult r k ∧ t'.out = .dResult r k')
end

