-- ==== Sys2Proof/Laws/State.lean ====
section
/-! SUPPORT. What each shared update does to each field of the state, so that no later proof unfolds a record update. -/

namespace Sys2Proof.Machine

variable (s : State)

@[simp] theorem drive_enc (o : Output) : (drive o s).enc = s.enc := rfl
@[simp] theorem drive_dec (o : Output) : (drive o s).dec = s.dec := rfl
@[simp] theorem drive_straps (o : Output) : (drive o s).straps = s.straps := rfl
@[simp] theorem drive_out (o : Output) : (drive o s).out = o := rfl
@[simp] theorem drive_diagLog (o : Output) : (drive o s).diagLog = s.diagLog := rfl
@[simp] theorem drive_pending (o : Output) : (drive o s).pending = s.pending := rfl

@[simp] theorem clearEnc_enc : (clearEnc s).enc = State.reset.enc := rfl
@[simp] theorem clearEnc_dec : (clearEnc s).dec = s.dec := rfl
@[simp] theorem clearEnc_straps : (clearEnc s).straps = s.straps := rfl
@[simp] theorem clearEnc_out : (clearEnc s).out = s.out := rfl
@[simp] theorem clearEnc_diagLog : (clearEnc s).diagLog = s.diagLog := rfl
@[simp] theorem clearEnc_pending : (clearEnc s).pending = s.pending := rfl

@[simp] theorem clearDec_enc : (clearDec s).enc = s.enc := rfl
@[simp] theorem clearDec_dec : (clearDec s).dec = State.reset.dec := rfl
@[simp] theorem clearDec_straps : (clearDec s).straps = s.straps := rfl
@[simp] theorem clearDec_out : (clearDec s).out = s.out := rfl
@[simp] theorem clearDec_diagLog : (clearDec s).diagLog = s.diagLog := rfl
@[simp] theorem clearDec_pending : (clearDec s).pending = s.pending := rfl

@[simp] theorem acceptNibble_enc (n : Nibble) : (acceptNibble n s).enc = s.enc := rfl
@[simp] theorem acceptNibble_dec (n : Nibble) :
    (acceptNibble n s).dec
      = { s.dec with acc := s.dec.acc ++ nibbleBits n, idx := s.dec.idx + 1 } := rfl
@[simp] theorem acceptNibble_straps (n : Nibble) : (acceptNibble n s).straps = s.straps := rfl
@[simp] theorem acceptNibble_out (n : Nibble) : (acceptNibble n s).out = s.out := rfl
@[simp] theorem acceptNibble_diagLog (n : Nibble) : (acceptNibble n s).diagLog = s.diagLog := rfl
@[simp] theorem acceptNibble_pending (n : Nibble) : (acceptNibble n s).pending = s.pending := rfl

@[simp] theorem emitDiag_enc (ev : DiagEvent) : (emitDiag ev s).enc = s.enc := by
  unfold emitDiag; split <;> rfl
@[simp] theorem emitDiag_dec (ev : DiagEvent) : (emitDiag ev s).dec = s.dec := by
  unfold emitDiag; split <;> rfl
@[simp] theorem emitDiag_straps (ev : DiagEvent) : (emitDiag ev s).straps = s.straps := by
  unfold emitDiag; split <;> rfl
@[simp] theorem emitDiag_out (ev : DiagEvent) :
    (emitDiag ev s).out = if s.straps.diag then .diag ev else s.out := by
  unfold emitDiag; split <;> rfl
@[simp] theorem emitDiag_diagLog (ev : DiagEvent) :
    (emitDiag ev s).diagLog = if s.straps.diag then s.diagLog ++ [ev] else s.diagLog := by
  unfold emitDiag; split <;> rfl
@[simp] theorem emitDiag_pending (ev : DiagEvent) : (emitDiag ev s).pending = s.pending := by
  unfold emitDiag; split <;> rfl

@[simp] theorem raiseUncorrectable_enc (u : Uncorrectable) :
    (raiseUncorrectable u s).enc = s.enc := by simp [raiseUncorrectable]
@[simp] theorem raiseUncorrectable_dec (u : Uncorrectable) :
    (raiseUncorrectable u s).dec
      = { s.dec with
          status := .failed, failClass := failClassOf u, failIdx := s.dec.idx,
          acc := [], frag := [] } := by simp [raiseUncorrectable]
@[simp] theorem raiseUncorrectable_straps (u : Uncorrectable) :
    (raiseUncorrectable u s).straps = s.straps := by simp [raiseUncorrectable]
@[simp] theorem raiseUncorrectable_pending (u : Uncorrectable) :
    (raiseUncorrectable u s).pending = s.pending := by simp [raiseUncorrectable]
@[simp] theorem raiseUncorrectable_out (u : Uncorrectable) :
    (raiseUncorrectable u s).out
      = if s.straps.diag then .diag { cls := diagClassOf u, idx := s.dec.idx } else s.out := by
  simp [raiseUncorrectable]
@[simp] theorem raiseUncorrectable_diagLog (u : Uncorrectable) :
    (raiseUncorrectable u s).diagLog
      = if s.straps.diag then s.diagLog ++ [{ cls := diagClassOf u, idx := s.dec.idx }]
        else s.diagLog := by
  simp [raiseUncorrectable]

end Sys2Proof.Machine
end

