-- ==== Sys2Proof/Laws/Engines.lean ====
section
/-! SUPPORT. Everything one push can do to an engine, said once. -/

namespace Sys2Proof.Machine

/-- A completed chunk of exactly 8 bits is classified by the scan; the free value is not consulted. -/
theorem classifyChunk_of_candidate (b0 b1 b2 b3 b4 b5 b6 b7 : Bit) :
    classifyChunk [b0, b1, b2, b3, b4, b5, b6, b7]
      = classify (wordOf b0 b1 b2 b3 b4 b5 b6 b7) := rfl

/-- What one push can do to the encoder's registers. -/
theorem pushEnc_cases (b : Bit) (e : EncEngine) :
    (∃ d1 d2 d3, e.frag = [d1, d2, d3] ∧
      pushEnc b e = { frag := [], acc := e.acc ++ wordBits (enc4 (nibbleOf d1 d2 d3 b)) }) ∨
    (e.frag.length ≠ 3 ∧ pushEnc b e = { e with frag := e.frag ++ [b] }) := by
  obtain ⟨frag, acc⟩ := e
  match frag with
  | [] => exact .inr ⟨by simp, rfl⟩
  | [_] => exact .inr ⟨by simp, rfl⟩
  | [_, _] => exact .inr ⟨by simp, rfl⟩
  | [d1, d2, d3] => exact .inl ⟨d1, d2, d3, rfl, rfl⟩
  | _ :: _ :: _ :: _ :: rest => exact .inr ⟨by simp, by cases rest <;> rfl⟩

/-- What one push can do to the decoder: nothing, buffer the bit, or take the completed chunk. -/
theorem pushDec_cases (b : Bit) (s : State) :
    (s.dec.status = .failed ∧ pushDec b s = s) ∨
    (s.dec.status = .run ∧ s.dec.frag.length < 7 ∧
      pushDec b s = { s with dec := { s.dec with frag := s.dec.frag ++ [b] } }) ∨
    (s.dec.status = .run ∧ 7 ≤ s.dec.frag.length ∧
      pushDec b s = takeChunk (classifyChunk (s.dec.frag ++ [b]))
        { s with dec := { s.dec with frag := [] } }) := by
  unfold pushDec
  cases h : s.dec.status with
  | failed => exact .inl ⟨rfl, rfl⟩
  | run =>
    by_cases hlen : s.dec.frag.length < 7
    · exact .inr (.inl ⟨rfl, hlen, by simp; omega⟩)
    · exact .inr (.inr ⟨rfl, by omega, by simp; omega⟩)

/-- What a completed chunk can do to the decoder. -/
theorem takeChunk_cases (cls : ErrorClass) (s : State) :
    (∃ n, cls = .clean n ∧ takeChunk cls s = acceptNibble n s) ∨
    (∃ n, cls = .corrected n ∧
      takeChunk cls s = acceptNibble n (emitDiag { cls := .corrected, idx := s.dec.idx } s)) ∨
    (cls = .doubleError ∧ takeChunk cls s = raiseUncorrectable .doubleError s) ∨
    (cls = .tripleOrMoreError ∧ takeChunk cls s = raiseUncorrectable .tripleOrMoreError s) := by
  cases cls with
  | clean n => exact .inl ⟨n, rfl, rfl⟩
  | corrected n => exact .inr (.inl ⟨n, rfl, rfl⟩)
  | doubleError => exact .inr (.inr (.inl ⟨rfl, rfl⟩))
  | tripleOrMoreError => exact .inr (.inr (.inr ⟨rfl, rfl⟩))

/-- A completed chunk touches only the decoder, the outputs and the log. -/
theorem takeChunk_frame (cls : ErrorClass) (s : State) :
    (takeChunk cls s).enc = s.enc ∧ (takeChunk cls s).straps = s.straps ∧
      (takeChunk cls s).pending = s.pending := by
  rcases takeChunk_cases cls s with ⟨n, _, h⟩ | ⟨n, _, h⟩ | ⟨_, h⟩ | ⟨_, h⟩ <;> rw [h] <;> simp

@[simp] theorem pushDec_enc (b : Bit) (s : State) : (pushDec b s).enc = s.enc := by
  rcases pushDec_cases b s with ⟨_, h⟩ | ⟨_, _, h⟩ | ⟨_, _, h⟩ <;> simp [h, takeChunk_frame]

@[simp] theorem pushDec_straps (b : Bit) (s : State) : (pushDec b s).straps = s.straps := by
  rcases pushDec_cases b s with ⟨_, h⟩ | ⟨_, _, h⟩ | ⟨_, _, h⟩ <;> simp [h, takeChunk_frame]

@[simp] theorem pushDec_pending (b : Bit) (s : State) : (pushDec b s).pending = s.pending := by
  rcases pushDec_cases b s with ⟨_, h⟩ | ⟨_, _, h⟩ | ⟨_, _, h⟩ <;> simp [h, takeChunk_frame]

end Sys2Proof.Machine
end

