-- ==== Sys2Proof/Laws/Operands.lean ====
section
/-! SUPPORT. The small lemmas of the operand formats. -/

namespace Sys2Proof.Machine

@[simp] theorem nibbleBits_length (n : Nibble) : (nibbleBits n).length = 4 := rfl

@[simp] theorem wordBits_length (c : Word8) : (wordBits c).length = 8 := rfl

theorem nibbleBits_nibbleOf (d1 d2 d3 d4 : Bit) :
    nibbleBits (nibbleOf d1 d2 d3 d4) = [d1, d2, d3, d4] := by
  revert d1 d2 d3 d4; decide

theorem wordBits_wordOf (b0 b1 b2 b3 b4 b5 b6 b7 : Bit) :
    wordBits (wordOf b0 b1 b2 b3 b4 b5 b6 b7) = [b0, b1, b2, b3, b4, b5, b6, b7] := by
  cases b0 <;> cases b1 <;> cases b2 <;> cases b3 <;>
    cases b4 <;> cases b5 <;> cases b6 <;> cases b7 <;> rfl

/-- A bit string is a candidate exactly when it holds 8 bits, and the candidate's bits are the string's. -/
theorem candidateOf_eq_some {bits : BitString} {c : Word8} :
    candidateOf bits = some c ↔ bits = wordBits c := by
  constructor
  · intro h
    unfold candidateOf at h
    split at h
    · rw [← Option.some.inj h, wordBits_wordOf]
    · cases h
  · rintro rfl
    revert c
    decide +kernel

/-- A bit string is no candidate exactly when it does not hold 8 bits. -/
theorem candidateOf_eq_none {bits : BitString} : candidateOf bits = none ↔ bits.length ≠ 8 := by
  unfold candidateOf
  split
  · simp
  · rename_i h
    simp only [true_iff]
    intro hlen
    match bits with
    | [b0, b1, b2, b3, b4, b5, b6, b7] => exact h b0 b1 b2 b3 b4 b5 b6 b7 rfl

end Sys2Proof.Machine
end

