-- ==== Sys2Proof/Laws/PerInstr.lean ====
section
/-! SUPPORT. Families of lemmas with one lemma per operation: the operation is well formed and its transaction has an operand width its port group takes. -/

namespace Sys2Proof.Laws.EncodeFits

/-- The operation is well formed and so is the transaction that issues it (R34, R60, R69). -/
def Statement (i : Instr) : Prop :=
  WellFormed i = true ∧ (encode i).wellFormed = true

theorem cbrd (a : Nibble) : Statement (.cbrd a) := ⟨rfl, rfl⟩
theorem enc4 (n : Nibble) : Statement (.enc4 n) := ⟨rfl, rfl⟩
theorem epush (b : Bit) : Statement (.epush b) := ⟨rfl, rfl⟩
theorem eend : Statement .eend := ⟨rfl, rfl⟩
theorem syn (c : Word8) : Statement (.syn c) := ⟨rfl, rfl⟩
theorem cls (c : Word8) : Statement (.cls c) := ⟨rfl, rfl⟩
theorem dpush (b : Bit) : Statement (.dpush b) := ⟨rfl, rfl⟩
theorem dend : Statement .dend := ⟨rfl, rfl⟩
theorem reset : Statement .reset := ⟨rfl, rfl⟩

end Sys2Proof.Laws.EncodeFits
end

