-- ==== Sys2Proof/Laws/Step.lean ====
section
/-! SUPPORT. The cases of one step, said once. -/

namespace Sys2Proof.Machine

/-- If a step answers a next state, nothing was to issue, or the next transaction's operation was executed. -/
theorem step_next_cases {s t : State} (h : step s = .next t) :
    (s.pending = [] ∧ t = s) ∨
    ∃ tr rest i, s.pending = tr :: rest ∧ decode tr = .ok i ∧
      exec i { s with pending := rest } = .next t := by
  unfold step at h
  split at h
  · rename_i hp
    cases h
    exact .inl ⟨hp, rfl⟩
  · rename_i tr rest hp
    split at h
    · rename_i i hd
      exact .inr ⟨tr, rest, i, hp, hd, h⟩
    · cases h

/-- A run of `k + 1` steps is a step and then a run of `k` steps, where the step answers a next state. -/
theorem core_run_succ {s s' : State} (k : Nat) (h : step s = .next s') :
    core.run (k + 1) s = core.run k s' := by
  have hstep : core.step s = .next s' := h
  simp only [Host.Core.run, hstep]

/-- A run that answers a next state after `k + 1` steps took a first step. -/
theorem core_run_succ_inv {s t : State} {k : Nat} (h : core.run (k + 1) s = .next t) :
    ∃ s', step s = .next s' ∧ core.run k s' = .next t := by
  simp only [Host.Core.run] at h
  split at h
  · rename_i s' hs
    exact ⟨s', hs, h⟩
  · cases h
  · cases h

end Sys2Proof.Machine
end

