-- ==== Sys2Proof/Tests/Slice0.lean ====
section
/-! SUPPORT. Tests with results taken from spec/ (each names its place), and for every statement with hypotheses a witness that meets them. -/

namespace Sys2Proof.Tests

open Sys2Proof Sys2Proof.Machine

/-- The bits of a written bit string. -/
def bits (s : String) : BitString :=
  s.toList.map fun ch => ch == '1'

/-- The next state of an outcome. -/
def next? : Host.Outcome State Fault Refusal → Option State
  | .next s => some s
  | .fault _ => none
  | .refused _ => none

/-- The reason a step was refused for. -/
def refusal? : Host.Outcome State Fault Refusal → Option Refusal
  | .next _ => none
  | .fault _ => none
  | .refused r => some r

/-- A state whose encoder holds these bits. -/
def encState (strict : Bool) (frag acc : String) : State :=
  { State.reset with
    straps := { strictLen := strict, diag := true }
    enc := { frag := bits frag, acc := bits acc } }

/-- A state whose decoder is `RUN` with these bits. -/
def decState (strict : Bool) (frag acc : String) (idx : Nat) : State :=
  { State.reset with
    straps := { strictLen := strict, diag := true }
    dec := { State.reset.dec with frag := bits frag, acc := bits acc, idx := idx } }

/-- A state whose decoder has failed at chunk `idx`. -/
def failedState (cls : FailClass) (idx : Nat) : State :=
  { State.reset with
    dec := { State.reset.dec with status := .failed, failClass := cls, idx := idx, failIdx := idx } }

/-! ### WellFormed: every check refuses an ill-formed transaction (R34, R60) -/

theorem test_wf_rom_width : (Transaction.wellFormed ⟨.rom, bits "011"⟩) = false := by decide
theorem test_wf_nibble_width : (Transaction.wellFormed ⟨.nibbleEncoder, bits "01101"⟩) = false := by decide
theorem test_wf_syndrome_width : (Transaction.wellFormed ⟨.syndrome, bits "0110"⟩) = false := by decide
theorem test_wf_classifier_width : (Transaction.wellFormed ⟨.classifier, bits "011011001"⟩) = false := by
  decide
theorem test_wf_encoder_width : (Transaction.wellFormed ⟨.encoderStream, bits "01"⟩) = false := by decide
theorem test_wf_decoder_width : (Transaction.wellFormed ⟨.decoderStream, bits "01"⟩) = false := by decide
theorem test_wf_global_width : (Transaction.wellFormed ⟨.global, bits "0"⟩) = false := by decide
theorem test_wf_accepts : (Transaction.wellFormed ⟨.rom, bits "0110"⟩) = true := by decide
theorem test_wf_every_operand_legal : WellFormed (.cls 0x8E) = true := by decide

/-! ### Decode: operand words written out bit by bit (R60, R61, R62, R72; 95_test_vectors.md section 2) -/

theorem test_decode_cbrd : decode ⟨.rom, [false, true, true, false]⟩ = .ok (.cbrd 6) := by decide
theorem test_decode_enc4 : decode ⟨.nibbleEncoder, [true, false, true, true]⟩ = .ok (.enc4 11) := by decide
theorem test_decode_syn :
    decode ⟨.syndrome, [true, true, false, true, true, true, false, false]⟩ = .ok (.syn 0xDC) := by decide
theorem test_decode_cls :
    decode ⟨.classifier, [true, false, false, false, true, true, true, false]⟩ = .ok (.cls 0x8E) := by
  decide
theorem test_decode_epush : decode ⟨.encoderStream, [true]⟩ = .ok (.epush true) := by decide
theorem test_decode_eend : decode ⟨.encoderStream, []⟩ = .ok .eend := by decide
theorem test_decode_dpush : decode ⟨.decoderStream, [false]⟩ = .ok (.dpush false) := by decide
theorem test_decode_dend : decode ⟨.decoderStream, []⟩ = .ok .dend := by decide
theorem test_decode_reset : decode ⟨.global, []⟩ = .ok .reset := by decide
theorem test_decode_rejects_by_name :
    decode ⟨.decoderStream, [true, false]⟩ = .error (.operandWidth .decoderStream 2) := by decide
theorem test_table_words :
    [decodeTableWord 16 0x0106, decodeTableWord 16 0x0206, decodeTableWord 16 0x0301,
     decodeTableWord 16 0x0400, decodeTableWord 16 0x05DC, decodeTableWord 16 0x068E,
     decodeTableWord 16 0x0701, decodeTableWord 16 0x0800, decodeTableWord 16 0x0900]
      = [some (.cbrd 6), some (.enc4 6), some (.epush true), some .eend, some (.syn 0xDC),
         some (.cls 0x8E), some (.dpush true), some .dend, some .reset] := by decide
theorem test_table_word_without_port : decodeTableWord 8 0x06 = none := by decide
theorem test_table_word_operand_too_wide : decodeTableWord 16 0x0116 = none := by decide

/-! ### The operations, at most two tests each -/

/-- 40_codebook_rom.md R80: `CBRD 0110 -> 11001100`. -/
theorem test_cbrd_6 :
    (next? (exec (.cbrd 6) State.reset)).map (·.out) = some (.cbData 0b11001100) := by decide
/-- 40_codebook_rom.md R80: `a = 15` returns `11111111`. -/
theorem test_cbrd_15 :
    (next? (exec (.cbrd 15) State.reset)).map (·.out) = some (.cbData 0xFF) := by decide

/-- 95_test_vectors.md V1: `ENC4 0110 -> 11001100`. -/
theorem test_enc4_0110 :
    (next? (exec (.enc4 0b0110) State.reset)).map (·.out) = some (.encC 0b11001100) := by decide
/-- 41_encoder.md R92: `ENC4 0001 -> 11010010`. -/
theorem test_enc4_0001 :
    (next? (exec (.enc4 0b0001) State.reset)).map (·.out) = some (.encC 0b11010010) := by decide

/-- 42_syndrome_calculator.md R111: `SYN 11011100 -> S=4 sp=1`. -/
theorem test_syn_flip3 :
    (next? (exec (.syn 0b11011100) State.reset)).map (·.out) = some (.syn ⟨4, true⟩) := by decide
/-- 95_test_vectors.md section 2.3, pair (0,5): `S=7 sp=0`. -/
theorem test_syn_two_flips :
    (next? (exec (.syn 0b01001000) State.reset)).map (·.out) = some (.syn ⟨7, false⟩) := by decide

/-- 43_error_classifier.md R129: `CLS 11011100 -> Corrected 0110`. -/
theorem test_cls_corrected :
    (next? (exec (.cls 0b11011100) State.reset)).map (·.out) = some (.cls (.corrected 0b0110)) := by decide
/-- 95_test_vectors.md section 2.4: `CLS 10001110 -> DoubleError`. -/
theorem test_cls_double :
    (next? (exec (.cls 0b10001110) State.reset)).map (·.out) = some (.cls .doubleError) := by decide
/-- 93_implementation_defined.md U15: over another table content the last exit of the scan is live. -/
theorem test_scan_other_table : scan 0xFF [0x00, 0x0F] = .tripleOrMoreError := by decide

/-- 41_encoder.md R96: from `011`, `EPUSH 0` leaves `enc_frag = []`, `enc_acc = 11001100`. -/
theorem test_epush_completes :
    (next? (exec (.epush false) (encState false "011" ""))).map (·.enc)
      = some ⟨[], bits "11001100"⟩ := by decide
/-- 95_test_vectors.md section 2.5: after `0110`, `1`, the push of `0` leaves `enc_frag = 10`. -/
theorem test_epush_buffers :
    (next? (exec (.epush false) (encState false "1" "11001100"))).map (·.enc)
      = some ⟨bits "10", bits "11001100"⟩ := by decide

/-- 41_encoder.md R97: with `STRICT_LEN = false` the fragment `10` is dropped. -/
theorem test_eend_drops :
    (next? (exec .eend (encState false "10" "11001100"))).map (fun t => (t.out, t.enc))
      = some (.eResult (.ok (bits "11001100")), ⟨[], []⟩) := by decide
/-- 41_encoder.md R97: with `STRICT_LEN = true` it is `Failure(MalformedInput)`. -/
theorem test_eend_strict :
    (next? (exec .eend (encState true "10" "11001100"))).map (fun t => (t.out, t.enc))
      = some (.eResult (.failure .malformedInput), ⟨[], []⟩) := by decide

/-- 44_decoder.md R147: from `1101110`, `DPUSH 0` is `Corrected 0110`, event `diag(Corrected, 0)`. -/
theorem test_dpush_corrected :
    (next? (exec (.dpush false) (decState false "1101110" "" 0))).map (fun t => (t.dec, t.out))
      = some ({ State.reset.dec with acc := bits "0110", idx := 1 }, .diag ⟨.corrected, 0⟩) := by decide
/-- 95_test_vectors.md P3, step 16: `00100100` fails the message at chunk 1. -/
theorem test_dpush_fails :
    (next? (exec (.dpush false) (decState false "0010010" "0110" 1))).map (fun t => (t.dec, t.diagLog))
      = some (⟨[], [], .failed, .double, 1, 1⟩, [⟨.doubleError, 1⟩]) := by decide

/-- 95_test_vectors.md P3, step 25: `DEND -> Failure(DoubleError)`, chunk index 1, decoder cleared. -/
theorem test_dend_failed :
    (next? (exec .dend (failedState .double 1))).map (fun t => (t.out, t.dec))
      = some (.dResult (.failure .doubleError) (some 1), State.reset.dec) := by decide
/-- 95_test_vectors.md P5, step 19: with `STRICT_LEN = true` a pending `110` is `MalformedInput`. -/
theorem test_dend_strict :
    (next? (exec .dend (decState true "110" "0110" 1))).map (·.out)
      = some (.dResult (.failure .malformedInput) none) := by decide

/-- 95_test_vectors.md section 2.7: `RESET` clears a failure without reporting it. -/
theorem test_reset_clears_failure :
    (next? (exec .reset (failedState .double 0))).map (fun t => (t.dec, t.out))
      = some (State.reset.dec, .none) := by decide
/-- 95_test_vectors.md section 2.7: `RESET` in the middle of a message. -/
theorem test_reset_clears_encoder :
    (next? (exec .reset (encState true "011" "11001100"))).map (fun t => (t.enc, t.straps.strictLen))
      = some (⟨[], []⟩, true) := by decide

/-! ### The step -/

theorem test_step_idle : next? (step State.reset) = some State.reset := by decide
theorem test_step_issues :
    (next? (step { State.reset with pending := [⟨.rom, bits "0110"⟩, ⟨.global, []⟩] })).map
      (fun t => (t.out, t.pending)) = some (.cbData 0xCC, [⟨.global, []⟩]) := by decide
theorem test_step_refuses :
    refusal? (step { State.reset with pending := [⟨.rom, bits "011"⟩] })
      = some (.malformedTransaction (.operandWidth .rom 3)) := by decide
theorem test_withFetchWord :
    (next? (step (State.reset.withFetchWord 16 0x06DC))).map (·.out)
      = some (.cls (.corrected 6)) := by decide

/-! ### Whole messages -/

/-- 95_test_vectors.md P1: the byte 0x6B. -/
theorem test_encode_byte : encodeMessage (wordBits 0x6B) = bits "1100110001100110" := by decide
/-- 95_test_vectors.md P6: three flips, a wrong result without a failure. -/
theorem test_decode_three_flips : decodeMessage (bits "0010110001100110") = .ok (bits "11101011") := by
  decide
/-- 95_test_vectors.md section 2.6: the events of a message that fails at chunk 1. -/
theorem test_decode_events :
    decodeEvents 0 (bits "110011001100000010001110") = [⟨.doubleError, 1⟩] := by decide
/-- 95_test_vectors.md section 2.6: priority of causes under `STRICT_LEN = true`. -/
theorem test_decode_strict_priority : decodeStrict (bits "10001110110") = .failure .doubleError := by
  decide
/-- 10_state.md R34: with `DIAG = true` the status port shows the diagnostic registers. -/
theorem test_status_port :
    statusPort (failedState .double 2) = ⟨.failed, some ⟨.double, 2, 2⟩⟩ := by decide

/-! ### Witnesses: for every statement with hypotheses, data that meet all of them -/

theorem witness_DecodeOfEncode : WellFormed (.syn 0xDC) = true := by decide
theorem witness_EncodeOfDecode : decode ⟨.rom, bits "0110"⟩ = .ok (.cbrd 6) := by decide
theorem witness_DecodeRejectsByWidth :
    Transaction.wellFormed ⟨.encoderStream, bits "10"⟩ = false ∧
    Transaction.wellFormed ⟨.encoderStream, bits "1"⟩ = true ∧
    Transaction.wellFormed ⟨.encoderStream, []⟩ = true := by decide
theorem witness_StepRunsTheDecodedOperation :
    ({ State.reset with pending := [⟨.global, []⟩] } : State).pending = [⟨.global, []⟩] ∧
    decode ⟨.global, []⟩ = .ok .reset ∧ WellFormed .reset = true := by decide
theorem witness_StepStopsOnlyOnIllFormedTransactions :
    State.reset.pending = [] ∧
    ({ State.reset with pending := [⟨.rom, []⟩] } : State).pending = [⟨.rom, []⟩] ∧
    Transaction.wellFormed ⟨.rom, []⟩ = false := by decide
theorem witness_CodebookTableProperties :
    (0 : Nibble) ≠ 15 ∧ (0 : Nibble).toNat + (15 : Nibble).toNat = 15 ∧
    (0 : Nibble) ≠ 1 ∧ (0 : Nibble).toNat + (1 : Nibble).toNat ≠ 15 := by decide
theorem witness_Enc4Properties : enc4 6 = enc4 6 := by decide
theorem witness_SyndromeOfFlippedCodewords : (0 : Fin 8) ≠ 7 := by decide
theorem witness_ErrorPositionFindsTheCodeword :
    (syndrome 0xDC).sp = true ∧ (syndrome 0x01).sp = true := by decide
theorem witness_SyndromeVerdicts :
    ((syndrome 0xCC).sp = false ∧ (syndrome 0xCC).S = 0) ∧ (syndrome 0x01).sp = true ∧
    ((syndrome 0x8E).sp = false ∧ (syndrome 0x8E).S ≠ 0) := by decide
theorem witness_NearestMatchAgrees :
    (∀ j : Nibble, hdist 0xCC (romRead 6) ≤ hdist 0xCC (romRead j)) ∧
    (∀ j : Nibble, hdist 0xDC (romRead 6) ≤ hdist 0xDC (romRead j)) ∧
    (∀ j : Nibble, hdist 0x8E (romRead 7) ≤ hdist 0x8E (romRead j)) := by decide
theorem witness_SyndromePathAgrees :
    ((syndrome 0xFF).sp = false ∧ (syndrome 0xFF).S = 0) ∧ (syndrome 0xDC).sp = true ∧
    ((syndrome 0xF0).sp = false ∧ (syndrome 0xF0).S ≠ 0) := by decide
theorem witness_SingleCorrectedDoubleDetected : (6 : Fin 8) ≠ 7 := by decide
theorem witness_MoreThanTwoFlips :
    popcount (wordBits 0xE0) = 3 ∧ popcount (wordBits 0xF0) = 4 ∧ popcount (wordBits 0xF8) = 5 ∧
    popcount (wordBits 0xFC) = 6 ∧ popcount (wordBits 0x7F) = 7 ∧ popcount (wordBits 0xFF) = 8 := by decide
theorem witness_CombinationalOperationsTouchNoRegister :
    isCombinational (.cbrd 0) = true ∧ isCombinational (.enc4 0) = true ∧
    isCombinational (.syn 0) = true ∧ isCombinational (.cls 0) = true := by decide
theorem witness_EpushFollowsTheRule :
    ((encState false "01" "").enc.frag ++ [true]).length ≠ 4 ∧
    (encState false "011" "").enc.frag ++ [false] = [false, true, true, false] := by decide
theorem witness_EendDeliversAndClears :
    ((encState true "1" "").straps.strictLen = true ∧ (encState true "1" "").enc.frag ≠ []) ∧
    (encState false "111" "").straps.strictLen = false ∧ (encState true "" "").enc.frag = [] := by decide
theorem witness_EncoderEngineRealisesEncode :
    (∀ i ∈ [Instr.epush true, .dpush false, .cbrd 3, .dend], i ≠ .eend ∧ i ≠ .reset) ∧
    (decState true "110" "" 0).enc = State.reset.enc := by decide
theorem witness_EncodePseudoOperation : (decState true "110" "" 0).enc = State.reset.enc := by decide
theorem witness_EncodeLengthAndPositionLaws :
    4 * 1 + 4 ≤ (bits "01101011").length ∧ (bits "0110").length % 4 = 0 ∧
    ([] : BitString).length % 4 = 0 := by decide
theorem witness_DpushFollowsTheRule :
    (failedState .double 0).dec.status = .failed ∧
    ((decState false "110111" "" 0).dec.status = .run ∧ (decState false "110111" "" 0).dec.frag.length < 7) ∧
    ((decState false "1101110" "" 0).dec.status = .run ∧
      (decState false "1101110" "" 0).dec.frag = [true, true, false, true, true, true, false]) := by decide
theorem witness_DoubleErrorTakenOnEvenNonCodewords :
    (decState false "1000111" "0110" 1).dec.status = .run ∧
    (decState false "1000111" "0110" 1).dec.frag = [true, false, false, false, true, true, true] ∧
    popcount (bits "10001110") % 2 = 0 ∧ (0b10001110 : Word8) ∉ codebook := by decide
/-- The accepting branch: an odd candidate (`11011100`), and an even one that is a codeword (`11001100`). -/
theorem witness_DoubleErrorTakenOnEvenNonCodewords_accepts :
    ((decState false "1101110" "0110" 1).dec.status = .run ∧
      (decState false "1101110" "0110" 1).dec.frag = [true, true, false, true, true, true, false] ∧
      popcount (bits "11011100") % 2 ≠ 0) ∧
    ((decState false "1100110" "0110" 1).dec.status = .run ∧
      (decState false "1100110" "0110" 1).dec.frag = [true, true, false, false, true, true, false] ∧
      (0b11001100 : Word8) ∈ codebook) := by decide
theorem witness_DendReportsAndClears :
    ((failedState .double 0).dec.status = .failed ∧ (failedState .double 0).dec.failClass = .double) ∧
    ((failedState .triple 0).dec.status = .failed ∧ (failedState .triple 0).dec.failClass = .triple) ∧
    ((decState true "1" "" 0).dec.status = .run ∧ (decState true "1" "" 0).straps.strictLen = true ∧
      (decState true "1" "" 0).dec.frag ≠ []) ∧
    ((decState false "1" "" 0).dec.status = .run ∧ (decState false "1" "" 0).straps.strictLen = false) ∧
    ((decState true "" "0110" 1).dec.status = .run ∧ (decState true "" "0110" 1).dec.frag = []) := by decide
theorem witness_DecoderEngineRealisesDecode :
    (∀ i ∈ [Instr.dpush true, .epush false, .cls 3, .eend], i ≠ .dend ∧ i ≠ .reset) ∧
    (encState true "110" "").dec = State.reset.dec := by decide
theorem witness_StrictDecodePrecedence :
    decodeMessage (bits "10001110110") = .failure .doubleError ∧
    decodeMessage (bits "110") = .ok [] ∧
    decodeMessage (bits "11001100") = .ok (bits "0110") := by decide
theorem witness_DecodeLengthAndPositionLaws :
    decodeMessage (bits "1100110001100110") = .ok (bits "01101011") ∧
    8 * 1 + 8 ≤ (bits "1100110001100110").length ∧ (bits "10001110").length % 8 = 0 :=
  ⟨by rfl, by decide, by decide⟩
theorem witness_OneFlipPerChunkIsCorrected :
    ∀ p ∈ [((6 : Nibble), (0x10 : Word8)), (11, 0)], popcount (wordBits p.2) ≤ 1 := by
  intro p hp
  simp only [List.mem_cons, List.not_mem_nil, or_false] at hp
  rcases hp with rfl | rfl <;> decide
theorem witness_FailFastOnDoubleCorruptedChunk :
    (∀ p ∈ [((6 : Nibble), (0x10 : Word8))], popcount (wordBits p.2) ≤ 1) ∧
    popcount (wordBits 0x42) = 2 := by
  refine ⟨fun p hp => ?_, by decide⟩
  simp only [List.mem_cons, List.not_mem_nil, or_false] at hp
  subst hp
  decide
theorem witness_OnlyDendAndResetLeaveFailed :
    ((next? (exec .dend (failedState .double 0))).map (·.dec.status) = some .run) ∧
    ((next? (exec .reset (failedState .double 0))).map (·.dec.status) = some .run) ∧
    (failedState .double 0).dec.status = .failed := by decide
theorem witness_StatusPortShowsTheDecoder :
    State.reset.straps.diag = true ∧
    ({ State.reset with straps := ⟨false, false⟩ } : State).straps.diag = false := by decide
theorem witness_StepKeepsInv :
    ({ decState false "1101110" "0110" 1 with pending := [⟨.decoderStream, [false]⟩] } : State).Inv ∧
    (failedState .double 3).Inv ∧ (encState false "011" "11001100").Inv := by decide
theorem witness_step_answers_next :
    (next? (step { decState false "1101110" "0110" 1 with
      pending := [⟨.decoderStream, [false]⟩] })).map (·.dec.acc) = some (bits "01100110") := by decide
theorem witness_ReachableStatesMeetInv :
    core.run 1 { State.reset with straps := ⟨true, true⟩, pending := [⟨.global, []⟩] }
      = .next { State.reset with straps := ⟨true, true⟩, pending := [] } := by rfl
theorem witness_StepKeepsEncAccCodewords : (encState false "011" "11001100").EncAccHoldsCodewords :=
  ⟨[6], by decide⟩
theorem witness_StepKeepsStrapsAndLog :
    ((next? (step { decState false "1101110" "" 0 with pending := [⟨.decoderStream, [false]⟩] })).map
      (·.diagLog)) ≠ some (decState false "1101110" "" 0).diagLog := by decide
theorem witness_EncoderOperationsFrame : isEncoderOp (.epush true) = true ∧ isEncoderOp .eend = true := by
  decide
theorem witness_DecoderOperationsFrame : isDecoderOp (.dpush true) = true ∧ isDecoderOp .dend = true := by
  decide
theorem witness_EnginesAreIsolated :
    (encState true "01" "").enc = ({ encState true "01" "" with out := .cbData 0 } : State).enc ∧
    (decState true "01" "" 0).dec
      = ({ decState true "01" "" 0 with enc := ⟨[true], []⟩ } : State).dec ∧
    (decState true "01" "" 0).straps
      = ({ decState true "01" "" 0 with enc := ⟨[true], []⟩ } : State).straps := by decide
theorem witness_EngineOperationsCommute : isEncoderOp .eend = true ∧ isDecoderOp (.dpush false) = true := by
  decide

end Sys2Proof.Tests
end

/-! ## Laws of the decoder, of one step and of one operation -/

section
namespace Sys2Proof.Machine

/-! ### The decoder accepts by width (R34, R60) -/

/-- Everything the decoder can answer on a port group: it accepts the widths the group takes and rejects every other. -/
theorem decodeOn_cases (port : PortGroup) (operand : BitString) :
    (operand.length ∈ port.widths ∧ ∃ i, decodeOn port operand = .ok i) ∨
    (operand.length ∉ port.widths ∧ decodeOn port operand = rejectWidth port operand) := by
  cases port with
  | rom | nibbleEncoder =>
    simp only [decodeOn]
    split
    · exact .inl ⟨by simp [PortGroup.widths], _, rfl⟩
    · rename_i hne
      exact .inr ⟨by simpa [PortGroup.widths, List.length_eq_four] using hne, rfl⟩
  | syndrome | classifier =>
    simp only [decodeOn]
    split
    · rename_i c hc
      exact .inl ⟨by simp [PortGroup.widths, candidateOf_eq_some.mp hc], _, rfl⟩
    · rename_i hc
      exact .inr ⟨by simpa [PortGroup.widths] using candidateOf_eq_none.mp hc, rfl⟩
  | encoderStream | decoderStream =>
    simp only [decodeOn]
    split
    · exact .inl ⟨by simp [PortGroup.widths], _, rfl⟩
    · exact .inl ⟨by simp [PortGroup.widths], _, rfl⟩
    · rename_i hnil hone
      exact .inr ⟨by simpa [PortGroup.widths, List.length_eq_one_iff] using ⟨hnil, hone false, hone true⟩, rfl⟩
  | global =>
    simp only [decodeOn]
    split
    · exact .inl ⟨by simp [PortGroup.widths], _, rfl⟩
    · rename_i hnil
      exact .inr ⟨by simpa [PortGroup.widths] using hnil, rfl⟩

/-- A transaction is well formed when its port group takes the width of its operand. -/
theorem wellFormed_iff_width_mem (tr : Transaction) :
    tr.wellFormed = true ↔ tr.operand.length ∈ tr.port.widths := by
  simp [Transaction.wellFormed]

/-- Everything the decoder can answer on a transaction. -/
theorem decode_cases (tr : Transaction) :
    (tr.wellFormed = true ∧ ∃ i, decode tr = .ok i) ∨
    (tr.wellFormed = false ∧ decode tr = .error (.operandWidth tr.port tr.operand.length)) := by
  rw [← Bool.not_eq_true, wellFormed_iff_width_mem]
  exact decodeOn_cases tr.port tr.operand

/-! ### Every operation completes (R222) -/

theorem exec_completes (i : Instr) (s : State) : ∃ t, exec i s = .next t := by
  cases i <;> exact ⟨_, rfl⟩

/-! ### One step (R6, R46) -/

theorem step_of_pending_nil {s : State} (hp : s.pending = []) : step s = .next s := by
  simp [step, hp]

theorem step_of_decode_ok {s : State} {tr : Transaction} {rest : List Transaction} {i : Instr}
    (hp : s.pending = tr :: rest) (hd : decode tr = .ok i) :
    step s = exec i { s with pending := rest } := by
  simp [step, hp, hd]

theorem step_of_decode_error {s : State} {tr : Transaction} {rest : List Transaction}
    {why : DecodeReject} (hp : s.pending = tr :: rest) (hd : decode tr = .error why) :
    step s = .refused (.malformedTransaction why) := by
  simp [step, hp, hd]

/-- Everything one step can answer: it completes, or the next transaction is ill formed and refused. -/
theorem step_cases (s : State) :
    ((∃ t, step s = .next t) ∧ ∀ tr rest, s.pending = tr :: rest → tr.wellFormed = true) ∨
    (∃ tr rest, s.pending = tr :: rest ∧ tr.wellFormed = false ∧
      step s = .refused (.malformedTransaction (.operandWidth tr.port tr.operand.length))) := by
  cases hp : s.pending with
  | nil => exact .inl ⟨⟨s, step_of_pending_nil hp⟩, by simp⟩
  | cons tr rest =>
    rcases decode_cases tr with ⟨hwf, i, hd⟩ | ⟨hwf, hd⟩
    · obtain ⟨t, ht⟩ := exec_completes i { s with pending := rest }
      exact .inl ⟨⟨t, (step_of_decode_ok hp hd).trans ht⟩, by simp [hwf]⟩
    · exact .inr ⟨tr, rest, rfl, hwf, step_of_decode_error hp hd⟩

theorem step_ne_fault (s : State) (f : Fault) : step s ≠ .fault f := by
  rcases step_cases s with ⟨⟨t, h⟩, _⟩ | ⟨_, _, _, _, h⟩ <;> simp [h]

theorem step_refused_iff (s : State) :
    (∃ r, step s = .refused r) ↔ ∃ tr rest, s.pending = tr :: rest ∧ tr.wellFormed = false := by
  rcases step_cases s with ⟨⟨t, h⟩, hwf⟩ | ⟨tr, rest, hp, hwf, h⟩
  · refine iff_of_false (by simp [h]) ?_
    rintro ⟨tr, rest, hp, hbad⟩
    simp [hwf tr rest hp] at hbad
  · exact iff_of_true ⟨_, h⟩ ⟨tr, rest, hp, hwf⟩

/-! ### What each engine's registers depend on (R31)

After any operation an engine's registers are determined by that engine's own registers before it. No strap is read on
the way to a register: `STRICT_LEN` and `DIAG` decide only what is driven and what is logged. -/

theorem takeChunk_dec_congr (cls : ErrorClass) {s s' : State} (hdec : s.dec = s'.dec) :
    (takeChunk cls s).dec = (takeChunk cls s').dec := by
  cases cls <;> simp [takeChunk, hdec]

theorem pushDec_dec_congr (b : Bit) {s s' : State} (hdec : s.dec = s'.dec) :
    (pushDec b s).dec = (pushDec b s').dec := by
  unfold pushDec
  rw [← hdec]
  cases s.dec.status with
  | failed => exact hdec
  | run =>
    simp only
    split
    · rfl
    · exact takeChunk_dec_congr _ rfl

theorem exec_dec_congr {i : Instr} {s s' t t' : State} (hdec : s.dec = s'.dec)
    (h : exec i s = .next t) (h' : exec i s' = .next t') : t.dec = t'.dec := by
  cases i with
  | dpush b => cases h; cases h'; exact pushDec_dec_congr b hdec
  | dend | reset => cases h; cases h'; rfl
  | cbrd _ | enc4 _ | epush _ | eend | syn _ | cls _ => cases h; cases h'; exact hdec

theorem exec_enc_congr {i : Instr} {s s' t t' : State} (henc : s.enc = s'.enc)
    (h : exec i s = .next t) (h' : exec i s' = .next t') : t.enc = t'.enc := by
  cases i with
  | epush b => cases h; cases h'; exact congrArg (pushEnc b) henc
  | eend | reset => cases h; cases h'; rfl
  | dpush b => cases h; cases h'; simpa using henc
  | cbrd _ | enc4 _ | syn _ | cls _ | dend => cases h; cases h'; exact henc

/-! ### The results of the end-of-message operations (R97, R148) -/

theorem exec_eend_out {s t : State} (h : exec .eend s = .next t) :
    t.out = .eResult (encResult s.straps.strictLen s.enc) := by
  cases h; rfl

theorem exec_dend_out {s t : State} (h : exec .dend s = .next t) :
    t.out = .dResult (decResult s.straps.strictLen s.dec) (decFailureIndex s) := by
  cases h; rfl

end Sys2Proof.Machine
end

/-! ## The statements of spec/00_scope.md -/

section
namespace Sys2Proof.Proofs

open Sys2Proof.Machine

/-- Settles O6: `step_cases` leaves two answers, and `Fault` (empty, log entry 15) is in neither. -/
theorem stepStopsOnlyOnIllFormedTransactions :
    Obligations.StepStopsOnlyOnIllFormedTransactions := fun s =>
  ⟨step_of_pending_nil, step_ne_fault s, step_refused_iff s⟩

/-- Settles O55: the registers do not depend on the straps, and the results read `STRICT_LEN` but not `DIAG`; only the
chunk index beside `DEND`'s result does. -/
theorem resultsDoNotDependOnDiag : Obligations.ResultsDoNotDependOnDiag := by
  intro i s d
  obtain ⟨t, ht⟩ := exec_completes i s
  obtain ⟨t', ht'⟩ := exec_completes i { s with straps := { s.straps with diag := d } }
  refine ⟨t, t', ht, ht', exec_enc_congr (by rfl) ht ht', exec_dec_congr (by rfl) ht ht', ?_, ?_⟩
  · rintro rfl
    have hout' := exec_eend_out ht'
    exact ⟨_, exec_eend_out ht, hout'⟩
  · rintro rfl
    have hout' := exec_dend_out ht'
    exact ⟨_, _, _, exec_dend_out ht, hout'⟩

/-- Settles O5: the step's equation for an accepted transaction. Every decoded operation is well formed (R69), so that
hypothesis is not used. -/
theorem stepRunsTheDecodedOperation : Obligations.StepRunsTheDecodedOperation :=
  fun _ _ _ _ hp hd _ => step_of_decode_ok hp hd

/-- Settles O45: each register of `State.reset` is written out at its reset value (R20, R35), `STRICT_LEN` at R9's default. -/
theorem resetStateHoldsResetValues : Obligations.ResetStateHoldsResetValues :=
  ⟨rfl, rfl, rfl, rfl, rfl, rfl, rfl, rfl, rfl⟩

end Sys2Proof.Proofs
end

/-! ## Laws of the transaction form, the frames of the operations, and what every step keeps -/

section
namespace Sys2Proof.Machine

/-! ### Decoding and encoding are inverse (R34, R60, R66, R67) -/

@[simp] theorem nibbleOf_nibbleBits (n : Nibble) :
    nibbleOf (n.getMsbD 0) (n.getMsbD 1) (n.getMsbD 2) (n.getMsbD 3) = n := by
  revert n; decide

@[simp] theorem candidateOf_wordBits (c : Word8) : candidateOf (wordBits c) = some c :=
  candidateOf_eq_some.mpr rfl

theorem decode_encode (i : Instr) : decode (encode i) = .ok i := by
  cases i with
  | cbrd n | enc4 n => simp [decode, encode, decodeOn, nibbleBits]
  | syn c | cls c => simp [decode, encode, decodeOn]
  | epush b | eend | dpush b | dend | reset => rfl

theorem encode_of_decodeOn_ok {port : PortGroup} {operand : BitString} {i : Instr}
    (h : decodeOn port operand = .ok i) : encode i = ⟨port, operand⟩ := by
  cases port with
  | rom | nibbleEncoder =>
    simp only [decodeOn] at h
    split at h
    · cases h; simp [encode, nibbleBits_nibbleOf]
    · cases h
  | syndrome | classifier =>
    simp only [decodeOn] at h
    split at h
    · rename_i c hc
      cases h; simp [encode, candidateOf_eq_some.mp hc]
    · cases h
  | encoderStream | decoderStream | global =>
    simp only [decodeOn] at h
    split at h <;> cases h <;> rfl

/-- The transactions that issue operations and the operations correspond one to one. -/
theorem decode_eq_ok_iff {tr : Transaction} {i : Instr} : decode tr = .ok i ↔ encode i = tr :=
  ⟨encode_of_decodeOn_ok, fun h => h ▸ decode_encode i⟩

/-! ### What an operation leaves unchanged (R31, R32, R223) -/

theorem isEncoderOp_iff {i : Instr} : isEncoderOp i = true ↔ (∃ b, i = .epush b) ∨ i = .eend := by
  cases i <;> simp [isEncoderOp]

theorem isDecoderOp_iff {i : Instr} : isDecoderOp i = true ↔ (∃ b, i = .dpush b) ∨ i = .dend := by
  cases i <;> simp [isDecoderOp]

theorem exec_straps {i : Instr} {s t : State} (h : exec i s = .next t) : t.straps = s.straps := by
  cases i with
  | dpush b => cases h; simp
  | cbrd _ | enc4 _ | epush _ | eend | syn _ | cls _ | dend | reset => cases h; rfl

theorem exec_pending {i : Instr} {s t : State} (h : exec i s = .next t) :
    t.pending = s.pending := by
  cases i with
  | dpush b => cases h; simp
  | cbrd _ | enc4 _ | epush _ | eend | syn _ | cls _ | dend | reset => cases h; rfl

theorem exec_dec_of_isEncoderOp {i : Instr} {s t : State} (hi : isEncoderOp i = true)
    (h : exec i s = .next t) : t.dec = s.dec := by
  rcases isEncoderOp_iff.mp hi with ⟨b, rfl⟩ | rfl <;> cases h <;> rfl

theorem exec_enc_of_isDecoderOp {i : Instr} {s t : State} (hi : isDecoderOp i = true)
    (h : exec i s = .next t) : t.enc = s.enc := by
  rcases isDecoderOp_iff.mp hi with ⟨b, rfl⟩ | rfl
  · cases h; simp
  · cases h; rfl

/-! ### Diagnostic events (R147, R195) -/

/-- The event a completed chunk of index `idx` calls for, by its class; a `Clean` chunk calls for none (R195). -/
def chunkEvent (idx : Nat) : ErrorClass → Option DiagEvent
  | .clean _ => none
  | .corrected _ => some { cls := .corrected, idx := idx }
  | .doubleError => some { cls := .doubleError, idx := idx }
  | .tripleOrMoreError => some { cls := .tripleOrMoreError, idx := idx }

/-- The event one push into the decoder emits: under `DIAG`, while `RUN`, for the chunk it completes (R147, R195). -/
def pushEvent (b : Bit) (straps : Straps) (d : DecEngine) : Option DiagEvent :=
  if straps.diag = true ∧ d.status = .run ∧ 7 ≤ d.frag.length then
    chunkEvent d.idx (classifyChunk (d.frag ++ [b]))
  else none

/-- From `s` to `t` exactly the event `ev` was emitted: it was appended to the log and driven. -/
def Emitted (ev : Option DiagEvent) (s t : State) : Prop :=
  t.diagLog = s.diagLog ++ ev.toList ∧ t.out = (ev.map Output.diag).getD s.out

theorem chunkEvent_idx {cls : ErrorClass} {idx : Nat} {ev : DiagEvent}
    (h : chunkEvent idx cls = some ev) : ev.idx = idx := by
  cases cls <;> cases h <;> rfl

theorem pushEvent_eq_some {b : Bit} {straps : Straps} {d : DecEngine} {ev : DiagEvent}
    (h : pushEvent b straps d = some ev) :
    straps.diag = true ∧ d.status = .run ∧ ev.idx = d.idx := by
  unfold pushEvent at h
  split at h
  · rename_i hc
    obtain ⟨hdiag, hrun, -⟩ := hc
    exact ⟨hdiag, hrun, chunkEvent_idx h⟩
  · cases h

theorem takeChunk_emitted (cls : ErrorClass) (s : State) :
    Emitted (if s.straps.diag = true then chunkEvent s.dec.idx cls else none) s (takeChunk cls s) := by
  cases cls <;> by_cases hdiag : s.straps.diag = true <;>
    simp [Emitted, takeChunk, chunkEvent, diagClassOf, hdiag]

theorem pushEvent_of_incomplete (b : Bit) (straps : Straps) {d : DecEngine}
    (hd : d.status = .failed ∨ d.frag.length < 7) : pushEvent b straps d = none := by
  refine if_neg ?_
  rintro ⟨-, hrun, hlen⟩
  rcases hd with hfailed | hlt
  · simp [hrun] at hfailed
  · omega

theorem pushEvent_of_complete (b : Bit) (straps : Straps) {d : DecEngine}
    (hrun : d.status = .run) (hlen : 7 ≤ d.frag.length) :
    pushEvent b straps d
      = if straps.diag = true then chunkEvent d.idx (classifyChunk (d.frag ++ [b])) else none := by
  simp [pushEvent, hrun, hlen]

theorem pushDec_emitted (b : Bit) (s : State) :
    Emitted (pushEvent b s.straps s.dec) s (pushDec b s) := by
  rcases pushDec_cases b s with ⟨hfailed, h⟩ | ⟨-, hlen, h⟩ | ⟨hrun, hlen, h⟩
  · simp [Emitted, pushEvent_of_incomplete b s.straps (.inl hfailed), h]
  · simp [Emitted, pushEvent_of_incomplete b s.straps (.inr hlen), h]
  · rw [h, pushEvent_of_complete b s.straps hrun hlen]
    exact takeChunk_emitted (classifyChunk (s.dec.frag ++ [b])) { s with dec := { s.dec with frag := [] } }

theorem exec_dpush_emitted {b : Bit} {s t : State} (h : exec (.dpush b) s = .next t) :
    Emitted (pushEvent b s.straps s.dec) (drive .none s) t := by
  cases h; exact pushDec_emitted b (drive .none s)

theorem exec_diagLog_cases {i : Instr} {s t : State} (h : exec i s = .next t) :
    t.diagLog = s.diagLog ∨
    ∃ b ev, i = .dpush b ∧ pushEvent b s.straps s.dec = some ev ∧ t.diagLog = s.diagLog ++ [ev] := by
  cases i with
  | dpush b =>
    obtain ⟨hlog, -⟩ := exec_dpush_emitted h
    cases hev : pushEvent b s.straps s.dec with
    | none => exact .inl (by simpa [hev] using hlog)
    | some ev => exact .inr ⟨b, ev, rfl, hev, by simpa [hev] using hlog⟩
  | cbrd _ | enc4 _ | epush _ | eend | syn _ | cls _ | dend | reset => cases h; exact .inl rfl

theorem exec_diagLog_of_isEncoderOp {i : Instr} {s t : State} (hi : isEncoderOp i = true)
    (h : exec i s = .next t) : t.diagLog = s.diagLog := by
  rcases isEncoderOp_iff.mp hi with ⟨b, rfl⟩ | rfl <;> cases h <;> rfl

/-! ### What an operation drives and emits depends on its engine and the straps (R31, R38, R48) -/

theorem exec_out_congr_of_isEncoderOp {i : Instr} {s s' t t' : State} (hi : isEncoderOp i = true)
    (henc : s.enc = s'.enc) (hstraps : s.straps = s'.straps)
    (h : exec i s = .next t) (h' : exec i s' = .next t') : t.out = t'.out := by
  rcases isEncoderOp_iff.mp hi with ⟨b, rfl⟩ | rfl
  · cases h; cases h'; rfl
  · rw [exec_eend_out h, exec_eend_out h', henc, hstraps]

theorem decFailureIndex_congr {s s' : State} (hdec : s.dec = s'.dec) (hstraps : s.straps = s'.straps) :
    decFailureIndex s = decFailureIndex s' := by
  simp [decFailureIndex, hdec, hstraps]

theorem exec_out_diagLog_congr_of_isDecoderOp {i : Instr} {s s' t t' : State}
    (hi : isDecoderOp i = true) (hdec : s.dec = s'.dec) (hstraps : s.straps = s'.straps)
    (h : exec i s = .next t) (h' : exec i s' = .next t') :
    t.out = t'.out ∧ ∃ evs, t.diagLog = s.diagLog ++ evs ∧ t'.diagLog = s'.diagLog ++ evs := by
  rcases isDecoderOp_iff.mp hi with ⟨b, rfl⟩ | rfl
  · obtain ⟨hlog, hout⟩ := exec_dpush_emitted h
    obtain ⟨hlog', hout'⟩ := exec_dpush_emitted h'
    rw [← hdec, ← hstraps] at hlog' hout'
    exact ⟨hout.trans hout'.symm, _, hlog, hlog'⟩
  · refine ⟨?_, [], ?_, ?_⟩
    · rw [exec_dend_out h, exec_dend_out h', hdec, hstraps, decFailureIndex_congr hdec hstraps]
    · cases h; simp
    · cases h'; simp

theorem exec_eq_of_isCombinational {i : Instr} (hi : isCombinational i = true) :
    ∃ o : Output, ∀ s : State, exec i s = .next { s with out := o } := by
  cases i with
  | cbrd _ | enc4 _ | syn _ | cls _ => exact ⟨_, fun _ => rfl⟩
  | epush _ | eend | dpush _ | dend | reset => cases hi

/-! ### One push into each engine -/

/-- The encoder half of R36: the fragment is short of a chunk, and `enc_acc` is a whole number of codewords long. -/
def EncEngine.Framed (e : EncEngine) : Prop :=
  e.frag.length ≤ 3 ∧ e.acc.length % 8 = 0

/-- The decoder half of R36, one clause per value of `dec_status`; `TRIPLE` is the failure class of neither. -/
def DecEngine.Consistent (d : DecEngine) : Prop :=
  (d.status = .run ∧ d.failClass = .none ∧ d.frag.length ≤ 7 ∧ d.acc.length = 4 * d.idx) ∨
  (d.status = .failed ∧ d.failClass = .double ∧ d.frag = [] ∧ d.acc = [] ∧ d.failIdx = d.idx)

/-- `enc_acc` is a concatenation of codewords (R23), said of the engine alone. -/
def EncEngine.HoldsCodewords (e : EncEngine) : Prop :=
  ∃ nibbles : List Nibble, e.acc = nibbles.flatMap fun n => wordBits (enc4 n)

theorem State.inv_iff (s : State) : s.Inv ↔ s.enc.Framed ∧ s.dec.Consistent := by
  unfold EncEngine.Framed DecEngine.Consistent
  cases hst : s.dec.status with
  | run | failed => grind

theorem DecEngine.consistent_iff_of_run {d : DecEngine} (hrun : d.status = .run) :
    d.Consistent ↔ d.failClass = .none ∧ d.frag.length ≤ 7 ∧ d.acc.length = 4 * d.idx := by
  simp [DecEngine.Consistent, hrun]

theorem State.encAccHoldsCodewords_iff (s : State) :
    s.EncAccHoldsCodewords ↔ s.enc.HoldsCodewords := Iff.rfl

theorem pushEnc_framed (b : Bit) {e : EncEngine} (he : e.Framed) : (pushEnc b e).Framed := by
  obtain ⟨hfrag, hacc⟩ := he
  rcases pushEnc_cases b e with ⟨d1, d2, d3, -, h⟩ | ⟨hne, h⟩
  · simpa [EncEngine.Framed, h] using hacc
  · exact ⟨by simp [h]; omega, by simpa [h] using hacc⟩

theorem pushEnc_holdsCodewords (b : Bit) {e : EncEngine} (he : e.HoldsCodewords) :
    (pushEnc b e).HoldsCodewords := by
  obtain ⟨nibbles, hacc⟩ := he
  rcases pushEnc_cases b e with ⟨d1, d2, d3, -, h⟩ | ⟨-, h⟩
  · exact ⟨nibbles ++ [nibbleOf d1 d2 d3 b], by simp [h, hacc]⟩
  · exact ⟨nibbles, by simpa [h] using hacc⟩

/-- Every 8-bit word is within distance 2 of the codebook, so the scan never runs off the table (R134). -/
theorem classify_ne_tripleOrMoreError (c : Word8) : classify c ≠ .tripleOrMoreError := by
  revert c; decide +kernel

theorem classifyChunk_ne_tripleOrMoreError {f : BitString} (hf : f.length = 8) :
    classifyChunk f ≠ .tripleOrMoreError := by
  unfold classifyChunk
  split
  · exact classify_ne_tripleOrMoreError _
  · rename_i hnone
    exact absurd hf (candidateOf_eq_none.mp hnone)

theorem takeChunk_consistent {cls : ErrorClass} {s : State} (hcls : cls ≠ .tripleOrMoreError)
    (hrun : s.dec.status = .run) (hs : s.dec.Consistent) : (takeChunk cls s).dec.Consistent := by
  obtain ⟨hclass, hfrag, hacc⟩ := (DecEngine.consistent_iff_of_run hrun).mp hs
  have haccept (n : Nibble) : (acceptNibble n s).dec.Consistent :=
    .inl ⟨hrun, hclass, hfrag, by simp [hacc]; omega⟩
  rcases takeChunk_cases cls s with ⟨n, -, h⟩ | ⟨n, -, h⟩ | ⟨-, h⟩ | ⟨htriple, -⟩
  · rw [h]; exact haccept n
  · simpa [h] using haccept n
  · exact .inr (by simp [h, failClassOf])
  · exact absurd htriple hcls

theorem pushDec_consistent (b : Bit) {s : State} (hs : s.dec.Consistent) :
    (pushDec b s).dec.Consistent := by
  rcases pushDec_cases b s with ⟨-, h⟩ | ⟨hrun, hlen, h⟩ | ⟨hrun, hlen, h⟩
  · rwa [h]
  · obtain ⟨hclass, -, hacc⟩ := (DecEngine.consistent_iff_of_run hrun).mp hs
    rw [h]
    exact .inl ⟨hrun, hclass, by simp; omega, hacc⟩
  · obtain ⟨hclass, hfrag, hacc⟩ := (DecEngine.consistent_iff_of_run hrun).mp hs
    have h8 : (s.dec.frag ++ [b]).length = 8 := by simp; omega
    rw [h]
    exact takeChunk_consistent (classifyChunk_ne_tripleOrMoreError h8) hrun
      (.inl ⟨hrun, hclass, by simp, hacc⟩)

/-! ### What a step can do to each engine, and what a run keeps -/

theorem exec_keeps_enc {P : EncEngine → Prop} (hreset : P State.reset.enc)
    (hpush : ∀ b e, P e → P (pushEnc b e)) {i : Instr} {s t : State}
    (hs : P s.enc) (h : exec i s = .next t) : P t.enc := by
  cases i with
  | epush b => cases h; exact hpush b _ hs
  | eend | reset => cases h; exact hreset
  | dpush b => cases h; simpa using hs
  | cbrd _ | enc4 _ | syn _ | cls _ | dend => cases h; exact hs

theorem exec_keeps_dec {P : DecEngine → Prop} (hreset : P State.reset.dec)
    (hpush : ∀ b s, P s.dec → P (pushDec b s).dec) {i : Instr} {s t : State}
    (hs : P s.dec) (h : exec i s = .next t) : P t.dec := by
  cases i with
  | dpush b => cases h; exact hpush b _ hs
  | dend | reset => cases h; exact hreset
  | cbrd _ | enc4 _ | epush _ | eend | syn _ | cls _ => cases h; exact hs

/-- A predicate that does not read the host's list is kept by a step when every operation keeps it. -/
theorem step_keeps {P : State → Prop} (hpending : ∀ s rest, P s → P { s with pending := rest })
    (hexec : ∀ i s t, P s → exec i s = .next t → P t) {s t : State}
    (hs : P s) (h : step s = .next t) : P t := by
  rcases step_next_cases h with ⟨-, rfl⟩ | ⟨_, rest, i, -, -, hi⟩
  · exact hs
  · exact hexec i _ t (hpending s rest hs) hi

/-- What every step keeps, every run keeps. -/
theorem core_run_keeps {P : State → Prop} (hstep : ∀ s t, P s → step s = .next t → P t) {k : Nat} :
    ∀ {s t : State}, P s → core.run k s = .next t → P t := by
  induction k with
  | zero => intro s t hs h; cases h; exact hs
  | succ k ih =>
    intro s t hs h
    obtain ⟨s', hfirst, hrest⟩ := core_run_succ_inv h
    exact ih (hstep s s' hs hfirst) hrest

theorem exec_keeps_inv (i : Instr) (s t : State) (hs : s.Inv) (h : exec i s = .next t) : t.Inv := by
  rw [State.inv_iff] at hs ⊢
  obtain ⟨henc, hdec⟩ := hs
  exact ⟨exec_keeps_enc ⟨by decide, by decide⟩ (fun b _ => pushEnc_framed b) henc h,
    exec_keeps_dec (.inl (by decide)) (fun b _ => pushDec_consistent b) hdec h⟩

theorem exec_keeps_encAccHoldsCodewords (i : Instr) (s t : State) (hs : s.EncAccHoldsCodewords)
    (h : exec i s = .next t) : t.EncAccHoldsCodewords := by
  rw [State.encAccHoldsCodewords_iff] at hs ⊢
  exact exec_keeps_enc ⟨[], rfl⟩ (fun b _ => pushEnc_holdsCodewords b) hs h

end Sys2Proof.Machine
end

/-! ## The statements of spec/10_state.md -/

section
namespace Sys2Proof.Proofs

open Sys2Proof.Machine

/-- Settles O1: one direction of the correspondence `decode_eq_ok_iff`; every operation is well formed (R69), so that
hypothesis is not used. -/
theorem decodeOfEncode : Obligations.DecodeOfEncode := fun i _ => decode_encode i

/-- Settles O2: the other direction of `decode_eq_ok_iff`. -/
theorem encodeOfDecode : Obligations.EncodeOfDecode := fun _ _ => decode_eq_ok_iff.mp

/-- Settles O3: `decode_cases` leaves two answers, told apart by `wellFormed`. -/
theorem decodeRejectsByWidth : Obligations.DecodeRejectsByWidth := by
  intro tr
  rcases decode_cases tr with ⟨hwf, hok⟩ | ⟨hwf, hreject⟩
  · exact ⟨by simp [hwf], fun _ => hok⟩
  · exact ⟨fun _ => hreject, by simp [hwf]⟩

/-- Settles O4: each word is the encoding of its operation, so these are nine instances of `decode_encode`. -/
theorem operandWordsDecode : Obligations.OperandWordsDecode :=
  ⟨decode_encode (.cbrd 6), decode_encode (.enc4 8), decode_encode (.syn 0xDC),
    decode_encode (.cls 0x8E), decode_encode (.epush true), decode_encode .eend,
    decode_encode (.dpush false), decode_encode .dend, decode_encode .reset⟩

/-- Settles O7: `exec` is total, and no operation writes the straps or the host's list. -/
theorem everyOperationCompletes : Obligations.EveryOperationCompletes := by
  intro i s
  obtain ⟨t, ht⟩ := exec_completes i s
  exact ⟨t, ht, exec_straps ht, exec_pending ht⟩

/-- Settles O26: each of the four operations is `drive` of a value computed from its operand. -/
theorem combinationalOperationsTouchNoRegister :
    Obligations.CombinationalOperationsTouchNoRegister := fun _ => exec_eq_of_isCombinational

/-- Settles O43: the two values of `DIAG`. -/
theorem statusPortShowsTheDecoder : Obligations.StatusPortShowsTheDecoder := fun s =>
  ⟨rfl, fun hdiag => by simp [statusPort, hdiag], fun hdiag => by simp [statusPort, hdiag]⟩

/-- Settles O46: a closed fact about the reset state. -/
theorem resetMeetsInv : Obligations.ResetMeetsInv := by
  unfold Obligations.ResetMeetsInv
  decide

/-- Settles O47: `TRIPLE` stays out because a chunk completed from at most 7 buffered bits has exactly 8, and no
8-bit word is classified `TripleOrMoreError`. -/
theorem stepKeepsInv : Obligations.StepKeepsInv :=
  fun _ _ => step_keeps (fun _ _ hs => hs) exec_keeps_inv

/-- Settles O48: the base case is O46 (the invariant reads neither the straps nor the host's list), the step O47. -/
theorem reachableStatesMeetInv : Obligations.ReachableStatesMeetInv :=
  fun _ _ _ _ => core_run_keeps stepKeepsInv resetMeetsInv

/-- Settles O49: the only append to `enc_acc` is the codeword of a completed chunk. -/
theorem stepKeepsEncAccCodewords : Obligations.StepKeepsEncAccCodewords :=
  fun _ _ => step_keeps (fun _ _ hs => hs) exec_keeps_encAccHoldsCodewords

/-- Settles O50: the log grows only by `pushEvent`, and the transaction that issued the push is its encoding
(`decode_eq_ok_iff`). -/
theorem stepKeepsStrapsAndLog : Obligations.StepKeepsStrapsAndLog := by
  intro s t h
  rcases step_next_cases h with ⟨-, rfl⟩ | ⟨tr, rest, i, hp, hd, hi⟩
  · exact ⟨rfl, fun hlog => absurd rfl hlog⟩
  · have hstraps := exec_straps hi
    refine ⟨hstraps, fun hlog => ?_⟩
    rcases exec_diagLog_cases hi with hsame | ⟨b, ev, rfl, hev, happend⟩
    · exact absurd hsame hlog
    · obtain ⟨hdiag, hrun, hidx⟩ := pushEvent_eq_some hev
      exact ⟨hdiag, hrun, b, rest, ev, by rw [hp, decode_eq_ok_iff.mp hd], hidx, happend⟩

/-- Settles O51: the encoder operations' frame, field by field. -/
theorem encoderOperationsFrame : Obligations.EncoderOperationsFrame := fun _ _ _ hi h =>
  ⟨exec_dec_of_isEncoderOp hi h, exec_straps h, exec_diagLog_of_isEncoderOp hi h, exec_pending h⟩

/-- Settles O52: the decoder operations' frame, field by field. -/
theorem decoderOperationsFrame : Obligations.DecoderOperationsFrame := fun _ _ _ hi h =>
  ⟨exec_enc_of_isDecoderOp hi h, exec_straps h, exec_pending h⟩

/-- Settles O53: the congruence lemmas of the registers, the outputs and the emitted events. -/
theorem enginesAreIsolated : Obligations.EnginesAreIsolated :=
  ⟨fun _ _ _ _ _ hi henc hstraps h h' =>
      ⟨exec_enc_congr henc h h', exec_out_congr_of_isEncoderOp hi henc hstraps h h'⟩,
    fun _ _ _ _ _ hi hdec hstraps h h' =>
      ⟨exec_dec_congr hdec h h', exec_out_diagLog_congr_of_isDecoderOp hi hdec hstraps h h'⟩⟩

/-- Settles O54: by the frames each engine runs its operation from the registers it had in `s`, so by the congruence
lemmas the order does not show. -/
theorem engineOperationsCommute : Obligations.EngineOperationsCommute := by
  intro i j s hi hj
  obtain ⟨a, ha⟩ := exec_completes i s
  obtain ⟨b, hb⟩ := exec_completes j s
  obtain ⟨ab, hab⟩ := exec_completes j a
  obtain ⟨ba, hba⟩ := exec_completes i b
  have henc : b.enc = s.enc := exec_enc_of_isDecoderOp hj hb
  have hdec : a.dec = s.dec := exec_dec_of_isEncoderOp hi ha
  obtain ⟨-, evs, hlogab, hlogb⟩ :=
    exec_out_diagLog_congr_of_isDecoderOp hj hdec (exec_straps ha) hab hb
  refine ⟨a, b, ab, ba, ha, hab, hb, hba, ?_, ?_, ?_, ?_, ?_⟩
  · calc ab.enc = a.enc := exec_enc_of_isDecoderOp hj hab
      _ = ba.enc := exec_enc_congr henc.symm ha hba
  · calc ab.dec = b.dec := exec_dec_congr hdec hab hb
      _ = ba.dec := (exec_dec_of_isEncoderOp hi hba).symm
  · rw [exec_straps hab, exec_straps ha, exec_straps hba, exec_straps hb]
  · calc ab.diagLog = s.diagLog ++ evs := by rw [hlogab, exec_diagLog_of_isEncoderOp hi ha]
      _ = ba.diagLog := by rw [exec_diagLog_of_isEncoderOp hi hba, hlogb]
  · rw [exec_pending hab, exec_pending ha, exec_pending hba, exec_pending hb]

end Sys2Proof.Proofs
end

/-! ## Laws of whole messages, read nibble by nibble -/

section
namespace Sys2Proof.Machine

/-- A byte's bits, most significant first, are those of its high nibble and then those of its low nibble (R43). -/
theorem wordBits_eq_nibbleBits_append (byte : Word8) :
    wordBits byte = nibbleBits (byte.extractLsb' 4 4) ++ nibbleBits (byte.extractLsb' 0 4) := by
  simp [wordBits, nibbleBits, BitVec.getMsbD]

@[simp] theorem encodeMessage_nil : encodeMessage [] = [] := rfl

/-- `encode` takes a leading nibble as one chunk (R98). -/
@[simp] theorem encodeMessage_nibbleBits_append (n : Nibble) (rest : BitString) :
    encodeMessage (nibbleBits n ++ rest) = wordBits (enc4 n) ++ encodeMessage rest := by
  simp [nibbleBits, encodeMessage]

@[simp] theorem encodeMessage_nibbleBits (n : Nibble) :
    encodeMessage (nibbleBits n) = wordBits (enc4 n) := by
  simpa using encodeMessage_nibbleBits_append n []

end Sys2Proof.Machine
end

/-! ## The statements of spec/20_memory.md -/

section
namespace Sys2Proof.Proofs

open Sys2Proof.Machine

/-- Settles O32: a byte is its high nibble and then its low nibble, each one chunk of the message. -/
theorem byteYieldsTwoCodewords : Obligations.ByteYieldsTwoCodewords := by
  intro byte
  rw [wordBits_eq_nibbleBits_append, encodeMessage_nibbleBits_append, encodeMessage_nibbleBits]

end Sys2Proof.Proofs
end

/-! ## Laws of a message issued to the encoder engine, operation by operation -/

section
namespace Sys2Proof.Machine

/-! ### The host's issue of a list of operations (R49) -/

/-- A step on an issued list executes its first operation with the others still to issue. -/
theorem step_issue_cons (i : Instr) (ops : List Instr) (s : State) :
    step (issue (i :: ops) s) = exec i (issue ops s) :=
  step_of_decode_ok rfl (decode_encode i)

theorem core_run_issue_cons {i : Instr} {ops : List Instr} {s t : State} (k : Nat)
    (hexec : exec i (issue ops s) = .next (issue ops t)) :
    core.run (k + 1) (issue (i :: ops) s) = core.run k (issue ops t) :=
  core_run_succ k ((step_issue_cons i ops s).trans hexec)

/-! ### The encoder engine over a whole message (R96 to R99) -/

/-- The encoder's registers after the bits of a message are pushed, first bit first (R96). -/
def pushEncBits (bits : BitString) (e : EncEngine) : EncEngine :=
  bits.foldl (fun e b => pushEnc b e) e

/-- Four pushes into an empty fragment append one codeword (R96). -/
theorem pushEncBits_chunk (d1 d2 d3 d4 : Bit) (rest acc : BitString) :
    pushEncBits (d1 :: d2 :: d3 :: d4 :: rest) { frag := [], acc := acc }
      = pushEncBits rest
          { frag := [], acc := acc ++ wordBits (enc4 (nibbleOf d1 d2 d3 d4)) } := rfl

/-- From an empty fragment the engine accumulates `encode` of the pushed bits and keeps the incomplete tail (R98, R99). -/
theorem pushEncBits_of_frag_nil : ∀ bits acc : BitString,
    pushEncBits bits { frag := [], acc := acc }
      = { frag := bits.drop (4 * (bits.length / 4)), acc := acc ++ encodeMessage bits }
  | [], _ | [_], _ | [_, _], _ | [_, _, _], _ => by simp [pushEncBits, pushEnc, encodeMessage]
  | d1 :: d2 :: d3 :: d4 :: rest, acc => by
    have hlen : 4 * ((rest.length + 4) / 4) = 4 * (rest.length / 4) + 4 := by omega
    simp [pushEncBits_chunk, pushEncBits_of_frag_nil rest, encodeMessage, hlen]

/-- The result of `EEND` after a message's bits is `encode` of them under the strap (R99). -/
theorem encResult_pushEncBits_reset (strict : Bool) (bits : BitString) :
    encResult strict (pushEncBits bits State.reset.enc) = encodeUnder strict bits := by
  have htail : bits.length - 4 * (bits.length / 4) = bits.length % 4 := by omega
  have hregs : pushEncBits bits State.reset.enc
      = { frag := bits.drop (4 * (bits.length / 4)), acc := encodeMessage bits } :=
    pushEncBits_of_frag_nil bits []
  cases strict with
  | false => simp [encResult, encodeUnder, hregs]
  | true =>
    by_cases hwhole : bits.length % 4 = 0 <;>
      simp [encResult, encodeUnder, encodeStrict, hregs, htail, hwhole]

/-- `ENCODE bits` from any encoder registers: each push changes those registers alone, and `EEND` delivers and clears. -/
theorem core_run_encodeOps (bits : BitString) : ∀ s : State,
    core.run (bits.length + 1) (issue (encodeOps bits) s)
      = .next { s with
          enc := State.reset.enc
          out := .eResult (encResult s.straps.strictLen (pushEncBits bits s.enc)) } := by
  induction bits with
  | nil =>
    intro s
    have hend : exec .eend (issue [] s)
        = .next (issue [] { s with
            enc := State.reset.enc
            out := .eResult (encResult s.straps.strictLen s.enc) }) := rfl
    exact core_run_issue_cons 0 hend
  | cons b bits ih =>
    intro s
    have hpush : exec (.epush b) (issue (encodeOps bits) s)
        = .next (issue (encodeOps bits) { s with enc := pushEnc b s.enc, out := .none }) := rfl
    exact (core_run_issue_cons _ hpush).trans (ih _)

@[simp] theorem encodeUnder_nil (strict : Bool) : encodeUnder strict [] = .ok [] := by
  cases strict <;> rfl

end Sys2Proof.Machine
end

/-! ## The statements of spec/30_encoding.md -/

section
namespace Sys2Proof.Proofs

open Sys2Proof.Machine

/-- Settles O30: the run clears the encoder, which was clear, and drives what `EEND` reads from the pushed bits. -/
theorem encodePseudoOperation : Obligations.EncodePseudoOperation := by
  refine ⟨fun bits s henc => ?_, encodeUnder_nil⟩
  rw [core_run_encodeOps, henc, encResult_pushEncBits_reset, ← henc]

end Sys2Proof.Proofs
end

/-! ## Laws of the codebook table: a linear code of weights 0, 4 and 8 -/

section
namespace Sys2Proof.Machine

@[simp] theorem exec_cbrd (a : Nibble) (s : State) :
    exec (.cbrd a) s = .next { s with out := .cbData (romRead a) } := rfl

@[simp] theorem exec_enc4 (n : Nibble) (s : State) :
    exec (.enc4 n) s = .next { s with out := .encC (enc4 n) } := rfl

/-! ### The facts read off the table of R82, entry by entry -/

/-- The parity equations generate the literal table (R83). -/
theorem enc4_eq_romRead (n : Nibble) : enc4 n = romRead n := by
  revert n; decide

/-- The code is systematic: an entry's data bits are its address (R84 (b)). -/
@[simp] theorem dataOf_romRead (a : Nibble) : dataOf (romRead a) = a := by
  revert a; decide

/-- The weight distribution of the code: `CB[0]` and `CB[15]` are the all-zero and the all-one word, every other entry
has weight 4. -/
theorem popcount_wordBits_romRead (a : Nibble) :
    popcount (wordBits (romRead a)) = if a = 0 then 0 else if a = 15 then 8 else 4 := by
  revert a; decide

/-- The table is linear (R84 (e)). -/
theorem romRead_xor (a b : Nibble) : romRead (a ^^^ b) = romRead a ^^^ romRead b := by
  revert a b; decide

theorem codebook_nodup : codebook.Nodup := by decide

/-! ### What follows from linearity and the weights -/

/-- Every entry has even weight (R84 (d)). -/
theorem parity_wordBits_romRead (a : Nibble) : parity (wordBits (romRead a)) = false := by
  rw [parity, popcount_wordBits_romRead]
  split_ifs <;> rfl

/-- The complement of a nibble, as exclusive-or and as subtraction. -/
theorem nibble_xor_fifteen (a : Nibble) : a ^^^ 15 = 15 - a := by
  revert a; decide

theorem nibble_xor_eq_fifteen_iff (a b : Nibble) : a ^^^ b = 15 ↔ a.toNat + b.toNat = 15 := by
  calc a ^^^ b = 15 ↔ b = a ^^^ 15 := ⟨fun h => by simp [← h], fun h => by simp [h]⟩
    _ ↔ b = 15 - a := by rw [nibble_xor_fifteen]
    _ ↔ a.toNat + b.toNat = 15 := by bv_omega

/-- The distance of two entries is the weight of the entry at the exclusive-or of their addresses (R84 (c)). -/
theorem hdist_romRead {a b : Nibble} (hab : a ≠ b) :
    hdist (romRead a) (romRead b) = if a.toNat + b.toNat = 15 then 8 else 4 := by
  have hxor : a ^^^ b ≠ 0 := mt BitVec.xor_eq_zero_iff.mp hab
  rw [hdist, ← romRead_xor, popcount_wordBits_romRead, if_neg hxor]
  simp only [nibble_xor_eq_fifteen_iff]

/-- Complementing an entry adds the all-one word `CB[15]`, so by linearity it complements the address (R84 (f)). -/
theorem not_romRead (a : Nibble) : ~~~ romRead a = romRead (15 - a) := by
  have hones : romRead 15 = BitVec.allOnes 8 := rfl
  rw [← nibble_xor_fifteen, romRead_xor, hones, BitVec.xor_allOnes]

end Sys2Proof.Machine
end

/-! ## The statements of spec/40_codebook_rom.md -/

section
namespace Sys2Proof.Proofs

open Sys2Proof.Machine

/-- Settles O8: the meaning of `CBRD`, and three of its instances. -/
theorem cbrdDrivesTheEntry : Obligations.CbrdDrivesTheEntry :=
  ⟨exec_cbrd, fun s => ⟨exec_cbrd 0 s, exec_cbrd 6 s, exec_cbrd 15 s⟩⟩

/-- Settles O9: the common word is `CB[n]`, which the parity equations also give. -/
theorem codebookSelfConsistent : Obligations.CodebookSelfConsistent := by
  intro n s
  exact ⟨romRead n, by rw [exec_enc4, enc4_eq_romRead], exec_cbrd n s⟩

/-- Settles O10: the entries are read off the table, and the distances follow from linearity and the weights. -/
theorem codebookTableProperties : Obligations.CodebookTableProperties := by
  refine ⟨rfl, codebook_nodup, dataOf_romRead, fun a b hab => ?_, parity_wordBits_romRead,
    fun a b => (romRead_xor a b).symm, not_romRead⟩
  rw [hdist_romRead hab]
  exact ⟨by split_ifs <;> decide, rfl⟩

end Sys2Proof.Proofs
end

/-! ## Laws of the nibble encoder and of the encoder engine under interleaved operations -/

section
namespace Sys2Proof.Machine

/-! ### The nibble encoder's word, bit by bit (R91 to R94) -/

theorem parity_nil : parity [] = false := rfl

/-- The parity of a bit string is the exclusive-or of its bits (R12, R93). -/
theorem parity_cons (b : Bit) (bits : BitString) : parity (b :: bits) = (b ^^ parity bits) := by
  cases b with
  | false => simp [parity, popcount]
  | true =>
    have hcount : popcount (true :: bits) = popcount bits + 1 := by simp [popcount]
    rcases Nat.mod_two_eq_zero_or_one (popcount bits) with h | h <;>
      simp [parity, hcount, Nat.add_mod, h]

/-- The word of `enc4` in the layout of R92, with the parities of R91. -/
theorem wordBits_enc4_nibbleOf (d1 d2 d3 d4 : Bit) :
    wordBits (enc4 (nibbleOf d1 d2 d3 d4)) =
      [parity [d1, d2, d4], parity [d1, d3, d4], d1, parity [d2, d3, d4], d2, d3, d4,
        parity [parity [d1, d2, d4], parity [d1, d3, d4], d1, parity [d2, d3, d4], d2, d3, d4]] := by
  have hbits := nibbleBits_nibbleOf d1 d2 d3 d4
  simp only [nibbleBits, List.cons.injEq, and_true] at hbits
  obtain ⟨h1, h2, h3, h4⟩ := hbits
  simp only [enc4, wordBits_wordOf, h1, h2, h3, h4]

/-- `d4` enters all three checks and cancels in the overall parity (R93). -/
theorem overallParity_closed_form (d1 d2 d3 d4 : Bit) :
    parity [parity [d1, d2, d4], parity [d1, d3, d4], d1, parity [d2, d3, d4], d2, d3, d4]
      = (d1 ^^ d2 ^^ d3) := by
  revert d1 d2 d3 d4; decide

@[simp] theorem dataOf_enc4 (n : Nibble) : dataOf (enc4 n) = n := by
  rw [enc4_eq_romRead, dataOf_romRead]

/-- The data bits stand in the codeword, so the codeword determines the nibble (R94 (b), (c)). -/
theorem enc4_injective : Function.Injective enc4 :=
  Function.LeftInverse.injective dataOf_enc4

theorem enc4_xor (a b : Nibble) : enc4 (a ^^^ b) = enc4 a ^^^ enc4 b := by
  simp only [enc4_eq_romRead, romRead_xor]

theorem popcount_wordBits_enc4_even (n : Nibble) : popcount (wordBits (enc4 n)) % 2 = 0 := by
  have hparity : parity (wordBits (enc4 n)) = false := by
    rw [enc4_eq_romRead, parity_wordBits_romRead]
  simpa [parity] using hparity

/-! ### The meanings of the encoder engine's operations (R96, R97) -/

theorem exec_epush (b : Bit) (s : State) :
    exec (.epush b) s = .next { s with enc := pushEnc b s.enc, out := .none } := rfl

theorem exec_eend (s : State) :
    exec .eend s = .next { s with
      enc := { frag := [], acc := [] }
      out := .eResult (encResult s.straps.strictLen s.enc) } := rfl

theorem pushEnc_of_incomplete {b : Bit} {e : EncEngine} (hlen : (e.frag ++ [b]).length ≠ 4) :
    pushEnc b e = { frag := e.frag ++ [b], acc := e.acc } := by
  rcases pushEnc_cases b e with ⟨d1, d2, d3, hfrag, -⟩ | ⟨-, h⟩
  · simp [hfrag] at hlen
  · exact h

theorem pushEnc_of_complete {d1 d2 d3 d4 : Bit} {e : EncEngine}
    (hchunk : e.frag ++ [d4] = [d1, d2, d3, d4]) :
    pushEnc d4 e = { frag := [], acc := e.acc ++ wordBits (enc4 (nibbleOf d1 d2 d3 d4)) } := by
  simp [pushEnc, hchunk]

theorem encResult_of_strict_of_pending {strict : Bool} {e : EncEngine}
    (hstrict : strict = true) (hfrag : e.frag ≠ []) :
    encResult strict e = .failure .malformedInput := by
  simp [encResult, hstrict, hfrag]

theorem encResult_of_lenient_or_whole {strict : Bool} {e : EncEngine}
    (h : strict = false ∨ e.frag = []) : encResult strict e = .ok e.acc := by
  rcases h with hstrict | hfrag
  · simp [encResult, hstrict]
  · simp [encResult, hfrag]

/-! ### The laws of the whole-message function (R100) -/

theorem encodeMessage_length : ∀ bits : BitString,
    (encodeMessage bits).length = 8 * (bits.length / 4)
  | [] | [_] | [_, _] | [_, _, _] => by simp [encodeMessage]
  | d1 :: d2 :: d3 :: d4 :: rest => by
    simp [encodeMessage, encodeMessage_length rest]; omega

/-- `encode` distributes over concatenation at a chunk boundary. -/
theorem encodeMessage_append (b : BitString) : ∀ a : BitString, a.length % 4 = 0 →
    encodeMessage (a ++ b) = encodeMessage a ++ encodeMessage b
  | [], _ => rfl
  | [_], h | [_, _], h | [_, _, _], h => by simp at h
  | d1 :: d2 :: d3 :: d4 :: rest, h => by
    have hrest : rest.length % 4 = 0 := by simp only [List.length_cons] at h; omega
    simp [encodeMessage, encodeMessage_append b rest hrest]

/-- Codeword `i` is the encoding of chunk `i` alone: cut the message before and after the chunk, where `encode` distributes,
and the lengths place the three parts. -/
theorem encodeMessage_codeword {bits : BitString} {i : Nat} (hi : 4 * i + 4 ≤ bits.length) :
    ((encodeMessage bits).drop (8 * i)).take 8 = encodeMessage ((bits.drop (4 * i)).take 4) := by
  have hbefore : (bits.take (4 * i)).length = 4 * i := by simp; omega
  have hchunk : ((bits.drop (4 * i)).take 4).length = 4 := by simp; omega
  have hsplit : encodeMessage bits = encodeMessage (bits.take (4 * i))
      ++ (encodeMessage ((bits.drop (4 * i)).take 4)
        ++ encodeMessage ((bits.drop (4 * i)).drop 4)) := by
    rw [← encodeMessage_append _ _ (by omega), List.take_append_drop,
      ← encodeMessage_append _ _ (by omega), List.take_append_drop]
  rw [hsplit, List.drop_left' (by rw [encodeMessage_length]; omega),
    List.take_left' (by rw [encodeMessage_length]; omega)]

theorem encodeMessage_bytes_length (bytes : List (BitVec 8)) :
    (encodeMessage (bytes.flatMap wordBits)).length = 16 * bytes.length := by
  have hbits : (bytes.flatMap wordBits).length = 8 * bytes.length := by
    simp [List.length_flatMap, Nat.mul_comm]
  rw [encodeMessage_length]; omega

/-! ### A list of operations issued one after another (R49) -/

theorem emitDiag_issue (ev : DiagEvent) (ops : List Instr) (s : State) :
    emitDiag ev (issue ops s) = issue ops (emitDiag ev s) := by
  by_cases hdiag : s.straps.diag = true <;> simp [emitDiag, issue, hdiag]

theorem takeChunk_issue (cls : ErrorClass) (ops : List Instr) (s : State) :
    takeChunk cls (issue ops s) = issue ops (takeChunk cls s) := by
  cases cls with
  | clean n => rfl
  | corrected n => exact congrArg (acceptNibble n) (emitDiag_issue _ ops s)
  | doubleError | tripleOrMoreError => simp only [takeChunk, raiseUncorrectable, ← emitDiag_issue]; rfl

theorem pushDec_issue (b : Bit) (ops : List Instr) (s : State) :
    pushDec b (issue ops s) = issue ops (pushDec b s) := by
  rcases pushDec_cases b s with ⟨hfailed, h⟩ | ⟨hrun, hlen, h⟩ | ⟨hrun, hlen, h⟩
  · rw [h]; simp [pushDec, issue, hfailed]
  · rw [h]; simp [pushDec, issue, hrun]; omega
  · rw [h, ← takeChunk_issue]; simp [pushDec, issue, hrun]; omega

/-- No operation reads or writes the host's list, so it does the same whatever else is still to issue. -/
theorem exec_issue {i : Instr} {s t : State} (ops : List Instr) (h : exec i s = .next t) :
    exec i (issue ops s) = .next (issue ops t) := by
  cases i with
  | dpush b => cases h; exact congrArg _ (pushDec_issue b ops (drive .none s))
  | cbrd _ | enc4 _ | epush _ | eend | syn _ | cls _ | dend | reset => cases h; rfl

/-- A run over an issued list: a predicate of the operations still to execute and of the state, kept by each operation, holds
with none left when the run comes to the operations after the list. -/
theorem core_run_issue_append {P : List Instr → State → Prop}
    (hexec : ∀ i ops s t, P (i :: ops) s → exec i s = .next t → P ops t)
    (rest : List Instr) (k : Nat) (ops : List Instr) : ∀ s, P ops s →
    ∃ t, core.run (ops.length + k) (issue (ops ++ rest) s) = core.run k (issue rest t) ∧
      P [] t ∧ t.straps = s.straps ∧ t.pending = s.pending := by
  induction ops with
  | nil => exact fun s hs => ⟨s, by simp, hs, rfl, rfl⟩
  | cons i ops ih =>
    intro s hs
    obtain ⟨u, hu⟩ := exec_completes i s
    obtain ⟨t, hrun, ht, hstraps, hpending⟩ := ih u (hexec i ops s u hs hu)
    refine ⟨t, ?_, ht, hstraps.trans (exec_straps hu), hpending.trans (exec_pending hu)⟩
    rw [List.length_cons, Nat.add_right_comm]
    exact (core_run_issue_cons _ (exec_issue _ hu)).trans hrun

/-! ### The encoder engine under interleaved operations (R31, R99) -/

/-- The operations still to execute end no message and will leave `e` in the encoder's registers: it is what pushing their
bits makes of the registers. -/
def EncoderWillHold (e : EncEngine) (ops : List Instr) (s : State) : Prop :=
  (∀ i ∈ ops, i ≠ .eend ∧ i ≠ .reset) ∧ pushEncBits (encBitsOf ops) s.enc = e

theorem encoderWillHold_exec {e : EncEngine} (i : Instr) (ops : List Instr) (s t : State)
    (hs : EncoderWillHold e (i :: ops) s) (h : exec i s = .next t) : EncoderWillHold e ops t := by
  obtain ⟨hops, henc⟩ := hs
  obtain ⟨⟨hend, hreset⟩, hrest⟩ := List.forall_mem_cons.mp hops
  refine ⟨hrest, ?_⟩
  cases i with
  | epush b => cases h; exact henc
  | eend => exact absurd rfl hend
  | reset => exact absurd rfl hreset
  | dpush b => cases h; simpa [encBitsOf] using henc
  | cbrd _ | enc4 _ | syn _ | cls _ | dend => cases h; exact henc

end Sys2Proof.Machine
end

/-! ## The statements of spec/41_encoder.md -/

section
namespace Sys2Proof.Proofs

open Sys2Proof.Machine

/-- Settles O29: whatever is interleaved, the run comes to `EEND` with the encoder holding what the pushed bits alone make of
it, and what `EEND` reads from that is `encode` of them. -/
theorem encoderEngineRealisesEncode : Obligations.EncoderEngineRealisesEncode := by
  intro ops s hops henc
  obtain ⟨t, hrun, ⟨-, ht⟩, hstraps, hpending⟩ :=
    core_run_issue_append encoderWillHold_exec [.eend] 1 ops s ⟨hops, rfl⟩
  refine ⟨_, hrun.trans (core_run_encodeOps [] t), ?_, rfl, hpending⟩
  have hresult : encResult t.straps.strictLen t.enc
      = encodeUnder s.straps.strictLen (encBitsOf ops) := by
    rw [← encResult_pushEncBits_reset, ← henc, ← ht, hstraps]; rfl
  exact congrArg Output.eResult hresult

/-- Settles O31: the length law and the concatenation law are inductions over the chunks; the other two follow from them. -/
theorem encodeLengthAndPositionLaws : Obligations.EncodeLengthAndPositionLaws :=
  ⟨encodeMessage_length, fun _ _ => encodeMessage_codeword,
    fun a b => encodeMessage_append b a, encodeMessage_bytes_length⟩

/-- Settles O11: the meaning of `ENC4`, and the bits of the word it drives. -/
theorem enc4DrivesTheParityEquations : Obligations.Enc4DrivesTheParityEquations :=
  fun d1 d2 d3 d4 s => ⟨_, exec_enc4 _ s, wordBits_enc4_nibbleOf d1 d2 d3 d4⟩

/-- Settles O12: a parity is an exclusive-or (`parity_cons`), and in the overall one `d4` cancels. -/
theorem encoderEquationsAsXor : Obligations.EncoderEquationsAsXor := by
  intro d1 d2 d3 d4 s
  refine ⟨_, _, _, _, exec_enc4 _ s, wordBits_enc4_nibbleOf d1 d2 d3 d4, ?_, ?_, ?_, ?_,
    overallParity_closed_form d1 d2 d3 d4⟩ <;>
    simp only [parity_cons, parity_nil, Bool.xor_false, Bool.xor_assoc]

/-- Settles O13: the parity equations generate the codebook table, which is systematic, linear and of even weight. -/
theorem enc4Properties : Obligations.Enc4Properties :=
  ⟨enc4_eq_romRead, dataOf_enc4, fun _ _ h => enc4_injective h, enc4_xor,
    popcount_wordBits_enc4_even⟩

/-- Settles O27: the two cases of a push, by whether the bit completes the chunk. -/
theorem epushFollowsTheRule : Obligations.EpushFollowsTheRule :=
  ⟨fun b s hlen => by rw [exec_epush, pushEnc_of_incomplete hlen],
    fun _ _ _ d4 s hchunk => by rw [exec_epush, pushEnc_of_complete hchunk]⟩

/-- Settles O28: the two cases of the result. -/
theorem eendDeliversAndClears : Obligations.EendDeliversAndClears := fun s =>
  ⟨fun hstrict hfrag => by rw [exec_eend, encResult_of_strict_of_pending hstrict hfrag],
    fun h => by rw [exec_eend, encResult_of_lenient_or_whole h]⟩

end Sys2Proof.Proofs
end

/-! ## Laws of the syndrome: a linear function of the word, zero on the codewords alone -/

section
namespace Sys2Proof.Machine

@[simp] theorem exec_syn (c : Word8) (s : State) :
    exec (.syn c) s = .next { s with out := .syn (syndrome c) } := rfl

/-! ### The checks of a word (R111) -/

theorem syndromeNumber_toNat (s3 s2 s1 : Bit) :
    (syndromeNumber s3 s2 s1).toNat = 4 * s3.toNat + 2 * s2.toNat + s1.toNat := by
  revert s3 s2 s1; decide

theorem syndromeNumber_xor (s3 s2 s1 r3 r2 r1 : Bit) :
    syndromeNumber (s3 ^^ r3) (s2 ^^ r2) (s1 ^^ r1)
      = syndromeNumber s3 s2 s1 ^^^ syndromeNumber r3 r2 r1 := by
  revert s3 s2 s1 r3 r2 r1; decide

theorem syndromeNumber_eq_zero_iff {s3 s2 s1 : Bit} :
    syndromeNumber s3 s2 s1 = 0 ↔ s3 = false ∧ s2 = false ∧ s1 = false := by
  revert s3 s2 s1; decide

theorem syndrome_wordOf (c0 c1 c2 c3 c4 c5 c6 c7 : Bit) :
    syndrome (wordOf c0 c1 c2 c3 c4 c5 c6 c7) =
      { S := syndromeNumber (parity [c3, c4, c5, c6]) (parity [c1, c2, c5, c6])
          (parity [c0, c2, c4, c6])
        sp := parity [c0, c1, c2, c3, c4, c5, c6, c7] } := by
  have hbits := wordBits_wordOf c0 c1 c2 c3 c4 c5 c6 c7
  simp only [wordBits, List.cons.injEq, and_true] at hbits
  obtain ⟨h0, h1, h2, h3, h4, h5, h6, h7⟩ := hbits
  simp only [syndrome, wordBits, h0, h1, h2, h3, h4, h5, h6, h7]

/-! ### Linearity (R113) -/

/-- The parity of a position-by-position exclusive-or, read at the positions `is` of two words. -/
theorem parity_map_getMsbD_xor (c e : Word8) (is : List Nat) :
    parity (is.map (c ^^^ e).getMsbD) = (parity (is.map c.getMsbD) ^^ parity (is.map e.getMsbD)) := by
  induction is with
  | nil => rfl
  | cons i is ih =>
    simp only [List.map_cons, parity_cons, ih, BitVec.getMsbD_xor, Bool.xor_assoc,
      Bool.xor_left_comm]

/-- The syndrome is linear: each of its bits is a parity. -/
theorem syndrome_xor (c e : Word8) :
    syndrome (c ^^^ e) =
      { S := (syndrome c).S ^^^ (syndrome e).S, sp := ((syndrome c).sp ^^ (syndrome e).sp) } := by
  have hparity := parity_map_getMsbD_xor c e
  have h1 := hparity [0, 2, 4, 6]
  have h2 := hparity [1, 2, 5, 6]
  have h3 := hparity [3, 4, 5, 6]
  have hp := hparity [0, 1, 2, 3, 4, 5, 6, 7]
  simp only [List.map_cons, List.map_nil] at h1 h2 h3 hp
  simp only [syndrome, wordBits, h1, h2, h3, hp, syndromeNumber_xor]

/-! ### The words of zero syndrome are the codewords (R112) -/

theorem syndrome_romRead (a : Nibble) : syndrome (romRead a) = { S := 0, sp := false } := by
  revert a; decide

theorem wordBits_injective : Function.Injective wordBits := fun c d h =>
  Option.some.inj (by rw [← candidateOf_wordBits c, h, candidateOf_wordBits])

/-- The four checks, solved for the four check bits, are the parity equations of R91 on the word's own data bits. -/
theorem enc4_dataOf_of_syndrome_eq_zero {c : Word8} (h : syndrome c = { S := 0, sp := false }) :
    enc4 (dataOf c) = c := by
  simp only [syndrome, Syndrome.mk.injEq, syndromeNumber_eq_zero_iff] at h
  obtain ⟨⟨h3, h2, h1⟩, hp⟩ := h
  apply wordBits_injective
  rw [dataOf, wordBits_enc4_nibbleOf]
  simp only [wordBits, parity_cons, parity_nil, List.cons.injEq] at *
  grind

theorem syndrome_eq_zero_iff (c : Word8) :
    syndrome c = { S := 0, sp := false } ↔ ∃ a : Nibble, c = romRead a := by
  constructor
  · exact fun h => ⟨dataOf c, by rw [← enc4_eq_romRead, enc4_dataOf_of_syndrome_eq_zero h]⟩
  · rintro ⟨a, rfl⟩
    exact syndrome_romRead a

/-- The result depends only on the error pattern (R113). -/
theorem syndrome_romRead_xor (a : Nibble) (e : Word8) : syndrome (romRead a ^^^ e) = syndrome e := by
  simp [syndrome_xor, syndrome_romRead]

/-! ### Flipped bits (R114 to R116) -/

/-- The column of the check equations at position `i`: the position counted from 1, and 0 for position 7, which enters
no check but the overall one (R114). -/
def checkColumn (i : Fin 8) : BitVec 3 :=
  BitVec.ofNat 3 (i.val + 1)

theorem checkColumn_toNat (i : Fin 8) :
    (checkColumn i).toNat = if i.val = 7 then 0 else i.val + 1 := by
  revert i; decide

@[simp] theorem errpos_checkColumn (i : Fin 8) : errpos (checkColumn i) = i := by
  revert i; decide

@[simp] theorem checkColumn_errpos (S : BitVec 3) : checkColumn (errpos S) = S := by
  revert S; decide

theorem errpos_val (S : BitVec 3) : (errpos S).val = if S = 0 then 7 else S.toNat - 1 := by
  revert S; decide

theorem checkColumn_injective : Function.Injective checkColumn :=
  Function.LeftInverse.injective errpos_checkColumn

/-- A flip adds its column to `S` and inverts `sp`. -/
theorem syndrome_flip (c : Word8) (i : Fin 8) :
    syndrome (flip c i) = { S := (syndrome c).S ^^^ checkColumn i, sp := !(syndrome c).sp } := by
  have hbit : syndrome (BitVec.ofNat 8 (2 ^ (7 - i.val))) = { S := checkColumn i, sp := true } := by
    revert i; decide
  rw [flip, syndrome_xor, hbit, Bool.xor_true]

@[simp] theorem flip_flip (c : Word8) (i : Fin 8) : flip (flip c i) i = c := by
  simp [flip]

/-- A flip is an exclusive-or with an error pattern, so it can be taken in the pattern. -/
theorem flip_xor (c e : Word8) (i : Fin 8) : flip (c ^^^ e) i = c ^^^ flip e i :=
  BitVec.xor_assoc ..

/-- A codeword with one bit flipped, as the codeword and its error pattern. -/
theorem flip_romRead (a : Nibble) (i : Fin 8) : flip (romRead a) i = romRead a ^^^ flip 0 i := by
  simp [← flip_xor]

/-- Flipping back the bit at `errpos S` cancels `S`, and any flip mends the overall parity (R116). -/
theorem exists_flip_errpos_eq_romRead {c : Word8} (hsp : (syndrome c).sp = true) :
    ∃ a : Nibble, flip c (errpos (syndrome c).S) = romRead a := by
  rw [← syndrome_eq_zero_iff]
  simp [syndrome_flip, hsp]

/-- With `sp = 1` a candidate is a codeword with the bit at `errpos S` flipped. -/
theorem exists_eq_flip_romRead {c : Word8} (hsp : (syndrome c).sp = true) :
    ∃ a : Nibble, c = flip (romRead a) (errpos (syndrome c).S) := by
  obtain ⟨a, ha⟩ := exists_flip_errpos_eq_romRead hsp
  exact ⟨a, by rw [← ha, flip_flip]⟩

/-- With `sp = 0` a candidate is a codeword with the bits at `errpos S` and at position 7 flipped: a flip at position 7
changes `sp` and not `S`, so it leads to the case `sp = 1`. -/
theorem exists_eq_flip_flip_romRead {c : Word8} (hsp : (syndrome c).sp = false) :
    ∃ a : Nibble, c = flip (flip (romRead a) (errpos (syndrome c).S)) 7 := by
  have hcolumn : checkColumn 7 = 0 := rfl
  have hflip : syndrome (flip c 7) = { S := (syndrome c).S, sp := true } := by
    simp [syndrome_flip, hcolumn, hsp]
  obtain ⟨a, ha⟩ := exists_eq_flip_romRead (c := flip c 7) (by rw [hflip])
  rw [hflip] at ha
  exact ⟨a, by rw [← ha, flip_flip]⟩

/-! ### Distances to the codebook (R116, R117) -/

theorem hdist_xor_left (x c e : Word8) : hdist (x ^^^ c) (x ^^^ e) = hdist c e := by
  have hxor : x ^^^ c ^^^ (x ^^^ e) = c ^^^ e := by
    rw [BitVec.xor_comm x c, BitVec.xor_assoc, ← BitVec.xor_assoc x x, BitVec.xor_self,
      BitVec.zero_xor]
  rw [hdist, hdist, hxor]

/-- The codeword at distance 1 is the one that was flipped: every other codeword is 4 or 8 bits away from that one. -/
theorem hdist_flip_romRead_eq_one_iff (a b : Nibble) (i : Fin 8) :
    hdist (flip (romRead a) i) (romRead b) = 1 ↔ b = a := by
  have hpattern : ∀ (i : Fin 8) (d : Nibble), hdist (flip 0 i) (romRead d) = 1 ↔ d = 0 := by decide
  have hb : romRead b = romRead a ^^^ romRead (a ^^^ b) := by
    rw [← romRead_xor, ← BitVec.xor_assoc, BitVec.xor_self, BitVec.zero_xor]
  rw [flip_romRead, hb, hdist_xor_left, hpattern]
  exact BitVec.xor_eq_zero_iff.trans eq_comm

/-- Adding a codeword permutes the codebook. -/
theorem codebook_map_xor_perm (a : Nibble) : (codebook.map (romRead a ^^^ ·)).Perm codebook := by
  have hnodup : (codebook.map (romRead a ^^^ ·)).Nodup :=
    codebook_nodup.map fun _ _ => (BitVec.xor_right_inj _).mp
  refine (List.subperm_of_subset hnodup fun w hw => ?_).perm_of_length_le (by simp)
  obtain ⟨v, hv, rfl⟩ := List.mem_map.mp hw
  obtain ⟨k, hk, rfl⟩ := List.mem_iff_getElem.mp hv
  exact (romRead_xor a (BitVec.ofFin ⟨k, hk⟩)).symm ▸ List.getElem_mem _

/-- How many codewords lie at which distances from a candidate depends only on its error pattern. -/
theorem codebook_filter_hdist_romRead_xor (p : Nat → Bool) (a : Nibble) (e : Word8) :
    (codebook.filter fun w => p (hdist (romRead a ^^^ e) w)).length
      = (codebook.filter fun w => p (hdist e w)).length := by
  rw [← ((codebook_map_xor_perm a).filter _).length_eq, List.filter_map, List.length_map]
  simp only [Function.comp_def, hdist_xor_left]

theorem codebook_filter_hdist_flip_eq_one (a : Nibble) (i : Fin 8) :
    (codebook.filter fun w => hdist (flip (romRead a) i) w = 1).length = 1 := by
  rw [flip_romRead, codebook_filter_hdist_romRead_xor (· = 1)]
  revert i; decide

/-- A word that is two flips away from a codeword, one of them at position 7, has four codewords at distance 2 (the eight
positions fall into four pairs whose columns have the same sum) and none nearer. -/
theorem codebook_filter_hdist_flip_flip (a : Nibble) {i : Fin 8} (hi : i ≠ 7) :
    (codebook.filter fun w => hdist (flip (flip (romRead a) i) 7) w = 2).length = 4 ∧
    (codebook.filter fun w => hdist (flip (flip (romRead a) i) 7) w ≤ 1).length = 0 := by
  rw [flip_romRead, flip_xor, codebook_filter_hdist_romRead_xor (· = 2),
    codebook_filter_hdist_romRead_xor (· ≤ 1)]
  revert i; decide

end Sys2Proof.Machine
end

/-! ## The statements of spec/42_syndrome_calculator.md -/

section
namespace Sys2Proof.Proofs

open Sys2Proof.Machine

/-- Settles O14: the meaning of `SYN`, and the checks of a word given by its bits. -/
theorem synDrivesTheChecks : Obligations.SynDrivesTheChecks := by
  intro c0 c1 c2 c3 c4 c5 c6 c7 s
  refine ⟨_, exec_syn _ s, ?_, ?_⟩
  · rw [syndrome_wordOf, syndromeNumber_toNat]
  · rw [syndrome_wordOf]

/-- Settles O15: the checks are zero on the table, and solved for the check bits they give the encoder's equations. -/
theorem syndromeZeroExactlyOnCodewords : Obligations.SyndromeZeroExactlyOnCodewords :=
  syndrome_eq_zero_iff

/-- Settles O16: the syndrome is linear and zero on the codeword, so each flip adds its own column to `S` and inverts `sp`;
the eight columns differ. -/
theorem syndromeOfFlippedCodewords : Obligations.SyndromeOfFlippedCodewords := by
  refine ⟨syndrome_romRead_xor, fun a i => ?_, fun a i j hij => ?_, fun a e => ?_⟩
  · simp [syndrome_flip, syndrome_romRead, checkColumn_toNat]
  · have hcolumns : checkColumn i ≠ checkColumn j := checkColumn_injective.ne hij
    simpa [syndrome_flip, syndrome_romRead] using hcolumns
  · rw [syndrome_romRead_xor]; rfl

/-- Settles O17: the bit at `errpos S` is the flipped one, and the codewords are too far apart for a second one at
distance 1. -/
theorem errorPositionFindsTheCodeword : Obligations.ErrorPositionFindsTheCodeword := by
  refine ⟨errpos_val, fun c hsp => ?_⟩
  obtain ⟨a, ha⟩ := exists_flip_errpos_eq_romRead hsp
  refine ⟨a, ha, fun b => ?_⟩
  rw [← flip_flip c (errpos (syndrome c).S), ha, hdist_flip_romRead_eq_one_iff]

/-- Settles O18: the syndrome shows an error pattern of at most two flips, and the counts of codewords by distance depend
only on the pattern. -/
theorem syndromeVerdicts : Obligations.SyndromeVerdicts := by
  refine fun c => ⟨fun hsp hS => ?_, fun hsp => ?_, fun hsp hS => ?_⟩
  · exact (syndrome_eq_zero_iff c).mp (by rw [← hS, ← hsp])
  · obtain ⟨a, ha⟩ := exists_eq_flip_romRead hsp
    exact ⟨by rw [ha]; exact codebook_filter_hdist_flip_eq_one a _, a, ha⟩
  · obtain ⟨a, ha⟩ := exists_eq_flip_flip_romRead hsp
    have hpos : errpos (syndrome c).S ≠ 7 := fun h => hS (by
      rw [← checkColumn_errpos (syndrome c).S, h]; rfl)
    rw [ha]
    exact codebook_filter_hdist_flip_flip a hpos

end Sys2Proof.Proofs
end

/-! ## Laws of the classifier: the first entry within distance 2, which the syndrome also finds -/

section
namespace Sys2Proof.Machine

@[simp] theorem exec_cls (c : Word8) (s : State) :
    exec (.cls c) s = .next { s with out := .cls (classify c) } := rfl

/-! ### Distance is a metric (R131) -/

theorem popcount_cons (b : Bit) (bits : BitString) : popcount (b :: bits) = b.toNat + popcount bits := by
  cases b <;> simp [popcount, Nat.add_comm]

/-- The weight of a position-by-position exclusive-or, read at the positions `is` of two words. -/
theorem popcount_map_getMsbD_xor_le (c e : Word8) (is : List Nat) :
    popcount (is.map (c ^^^ e).getMsbD)
      ≤ popcount (is.map c.getMsbD) + popcount (is.map e.getMsbD) := by
  induction is with
  | nil => simp
  | cons i is ih =>
    have hbit : ∀ b d : Bit, (b ^^ d).toNat ≤ b.toNat + d.toNat := by decide
    specialize hbit (c.getMsbD i) (e.getMsbD i)
    simp only [List.map_cons, popcount_cons, BitVec.getMsbD_xor]
    omega

theorem eq_zero_of_popcount_wordBits {e : Word8} (h : popcount (wordBits e) = 0) : e = 0 := by
  have hbits := List.count_eq_zero.mp h
  apply wordBits_injective
  simp only [wordBits, List.mem_cons, not_or, eq_comm (a := true)] at hbits
  simp [wordBits, hbits]

theorem eq_allOnes_of_popcount_wordBits {e : Word8} (h : popcount (wordBits e) = 8) :
    e = BitVec.allOnes 8 := by
  have hbits := List.count_eq_length.mp (h.trans (wordBits_length e).symm)
  apply wordBits_injective
  simp only [wordBits, List.forall_mem_cons] at hbits
  simp [wordBits, ← hbits]

@[simp] theorem hdist_eq_zero_iff {c e : Word8} : hdist c e = 0 ↔ c = e := by
  constructor
  · exact fun h => BitVec.xor_eq_zero_iff.mp (eq_zero_of_popcount_wordBits h)
  · rintro rfl
    rw [hdist, BitVec.xor_self]; rfl

theorem hdist_comm (c e : Word8) : hdist c e = hdist e c := by
  rw [hdist, hdist, BitVec.xor_comm]

theorem hdist_triangle (c e w : Word8) : hdist c w ≤ hdist c e + hdist e w := by
  have hxor : c ^^^ w = c ^^^ e ^^^ (e ^^^ w) := by
    rw [BitVec.xor_assoc, ← BitVec.xor_assoc e e, BitVec.xor_self, BitVec.zero_xor]
  rw [hdist, hxor]
  exact popcount_map_getMsbD_xor_le (c ^^^ e) (e ^^^ w) [0, 1, 2, 3, 4, 5, 6, 7]

/-- The distance to a codeword is the weight of the error pattern. -/
theorem hdist_romRead_xor_self (a : Nibble) (e : Word8) :
    hdist (romRead a ^^^ e) (romRead a) = popcount (wordBits e) := by
  rw [hdist, BitVec.xor_comm (romRead a), BitVec.xor_assoc, BitVec.xor_self, BitVec.xor_zero]

/-- Two entries that share a candidate within distance 2 lie both at distance 2, unless they are one entry (R131). -/
theorem eq_or_hdist_eq_two {c : Word8} {a b : Nibble} (ha : hdist c (romRead a) ≤ 2)
    (hb : hdist c (romRead b) ≤ 2) :
    a = b ∨ (hdist c (romRead a) = 2 ∧ hdist c (romRead b) = 2) := by
  by_cases hab : a = b
  · exact .inl hab
  · have hfar : 4 ≤ hdist (romRead a) (romRead b) := by
      rw [hdist_romRead hab]; split_ifs <;> decide
    have htriangle := hdist_triangle (romRead a) c (romRead b)
    rw [hdist_comm (romRead a) c] at htriangle
    omega

/-! ### The scan, said once (R126, R129) -/

/-- The class that the distance to the entry `e` gives (R125, R135 (c)). -/
def classAt (c e : Word8) : ErrorClass :=
  if hdist c e = 0 then .clean (dataOf c)
  else if hdist c e = 1 then .corrected (dataOf e)
  else if hdist c e = 2 then .doubleError
  else .tripleOrMoreError

theorem classAt_of_hdist_eq_two {c e : Word8} (h : hdist c e = 2) : classAt c e = .doubleError := by
  simp [classAt, h]

theorem classAt_of_two_lt_hdist {c e : Word8} (h : 2 < hdist c e) :
    classAt c e = .tripleOrMoreError := by
  rw [classAt, if_neg (by omega), if_neg (by omega), if_neg (by omega)]

theorem classAt_cases {c e : Word8} (h : hdist c e ≤ 2) :
    (hdist c e = 0 ∧ classAt c e = .clean (dataOf c)) ∨
    (hdist c e = 1 ∧ classAt c e = .corrected (dataOf e)) ∨
    (hdist c e = 2 ∧ classAt c e = .doubleError) := by
  unfold classAt
  interval_cases hdist c e <;> simp

/-- The scan answers with the class of the first entry within distance 2. -/
theorem scan_eq_find? (c : Word8) (es : List Word8) :
    scan c es = ((es.find? (hdist c · ≤ 2)).map (classAt c)).getD .tripleOrMoreError := by
  induction es with
  | nil => rfl
  | cons e es ih =>
    by_cases h : hdist c e ≤ 2
    · have hfound : (e :: es).find? (hdist c · ≤ 2) = some e := by simp [h]
      rw [hfound, scan]
      rcases classAt_cases h with ⟨hd, hclass⟩ | ⟨hd, hclass⟩ | ⟨hd, hclass⟩ <;>
        simp [hd, hclass]
    · have hskip : (e :: es).find? (hdist c · ≤ 2) = es.find? (hdist c · ≤ 2) := by simp [h]
      rw [hskip, ← ih, scan, if_neg (by omega), if_neg (by omega), if_neg (by omega)]

/-- Everything `classify` can do: it takes the class of the first entry within distance 2, or there is none. -/
theorem classify_cases (c : Word8) :
    (∃ k : Nibble, (∀ j : Nibble, j < k → 2 < hdist c (romRead j)) ∧ hdist c (romRead k) ≤ 2 ∧
      classify c = classAt c (romRead k)) ∨
    ((∀ k : Nibble, 2 < hdist c (romRead k)) ∧ classify c = .tripleOrMoreError) := by
  rw [classify, scan_eq_find?]
  cases hfind : codebook.find? (hdist c · ≤ 2) with
  | none =>
    refine .inr ⟨fun k => ?_, rfl⟩
    simpa using List.find?_eq_none.mp hfind (romRead k) (List.getElem_mem _)
  | some e =>
    obtain ⟨he, i, hi, rfl, hbefore⟩ := List.find?_eq_some_iff_getElem.mp hfind
    refine .inl ⟨BitVec.ofFin ⟨i, hi⟩, fun j hj => ?_, of_decide_eq_true he, rfl⟩
    have hskipped : (!decide (hdist c (romRead j) ≤ 2)) = true := hbefore j.toNat hj
    simpa using hskipped

/-- Whichever entry within distance 2 is taken, it gives the class of the first one (R131, R135). -/
theorem classify_eq_classAt {c : Word8} {k : Nibble} (hk : hdist c (romRead k) ≤ 2) :
    classify c = classAt c (romRead k) := by
  rcases classify_cases c with ⟨m, -, hm, hclass⟩ | ⟨hnone, -⟩
  · rcases eq_or_hdist_eq_two hm hk with rfl | ⟨hm2, hk2⟩
    · exact hclass
    · rw [hclass, classAt_of_hdist_eq_two hm2, classAt_of_hdist_eq_two hk2]
  · exact absurd (hnone k) hk.not_gt

/-- A nearest entry gives the class of the first match, whatever its distance (R135 (c)). -/
theorem classify_eq_classAt_of_nearest {c : Word8} {k : Nibble}
    (hk : ∀ j : Nibble, hdist c (romRead k) ≤ hdist c (romRead j)) :
    classify c = classAt c (romRead k) := by
  rcases classify_cases c with ⟨m, -, hm, -⟩ | ⟨hnone, hclass⟩
  · exact classify_eq_classAt ((hk m).trans hm)
  · rw [hclass, classAt_of_two_lt_hdist (hnone k)]

/-! ### Codewords with at most two flips (R137) -/

@[simp] theorem classify_romRead (a : Nibble) : classify (romRead a) = .clean a := by
  have hdist0 : hdist (romRead a) (romRead a) = 0 := hdist_eq_zero_iff.mpr rfl
  rw [classify_eq_classAt (k := a) (by omega)]
  simp [classAt]

@[simp] theorem classify_flip_romRead (a : Nibble) (i : Fin 8) :
    classify (flip (romRead a) i) = .corrected a := by
  have hdist1 : hdist (flip (romRead a) i) (romRead a) = 1 :=
    (hdist_flip_romRead_eq_one_iff a a i).mpr rfl
  rw [classify_eq_classAt (k := a) (by omega)]
  simp [classAt, hdist1]

theorem classify_flip_flip_romRead (a : Nibble) {i j : Fin 8} (hij : i ≠ j) :
    classify (flip (flip (romRead a) i) j) = .doubleError := by
  have hweight : popcount (wordBits (flip (flip 0 i) j)) = 2 := by
    revert i j; decide
  have hdist2 : hdist (flip (flip (romRead a) i) j) (romRead a) = 2 := by
    rw [flip_romRead, flip_xor, hdist_romRead_xor_self, hweight]
  rw [classify_eq_classAt (k := a) hdist2.le, classAt_of_hdist_eq_two hdist2]

/-! ### The class from the syndrome (R136) -/

theorem syndrome_sp (c : Word8) : (syndrome c).sp = parity (wordBits c) := rfl

theorem syndrome_sp_romRead_xor (a : Nibble) (e : Word8) :
    (syndrome (romRead a ^^^ e)).sp = parity (wordBits e) := by
  rw [syndrome_romRead_xor, syndrome_sp]

theorem classify_of_syndrome_eq_zero {c : Word8} (hsp : (syndrome c).sp = false)
    (hS : (syndrome c).S = 0) : ∃ a : Nibble, c = romRead a ∧ classify c = .clean a := by
  obtain ⟨a, rfl⟩ := (syndrome_eq_zero_iff c).mp (by rw [← hS, ← hsp])
  exact ⟨a, rfl, classify_romRead a⟩

theorem classify_of_sp {c : Word8} (hsp : (syndrome c).sp = true) :
    ∃ a : Nibble, flip c (errpos (syndrome c).S) = romRead a ∧ hdist c (romRead a) = 1 ∧
      classify c = .corrected a := by
  obtain ⟨a, ha⟩ := exists_flip_errpos_eq_romRead hsp
  have hc : c = flip (romRead a) (errpos (syndrome c).S) := by rw [← ha, flip_flip]
  exact ⟨a, ha, by rw [hc, hdist_flip_romRead_eq_one_iff], by rw [hc, classify_flip_romRead]⟩

theorem classify_of_even_of_S_ne_zero {c : Word8} (hsp : (syndrome c).sp = false)
    (hS : (syndrome c).S ≠ 0) : classify c = .doubleError := by
  obtain ⟨a, ha⟩ := exists_eq_flip_flip_romRead hsp
  have hpos : errpos (syndrome c).S ≠ 7 := fun h => hS (by
    rw [← checkColumn_errpos (syndrome c).S, h]; rfl)
  rw [ha, classify_flip_flip_romRead a hpos]

/-- The syndrome path computes what the scan computes (R136). -/
theorem classifySyn_eq_classify (c : Word8) : classifySyn c = classify c := by
  unfold classifySyn
  split_ifs with hsp hS
  · obtain ⟨a, hflip, -, hclass⟩ := classify_of_sp hsp
    rw [hclass, hflip, dataOf_romRead]
  · obtain ⟨a, rfl, hclass⟩ := classify_of_syndrome_eq_zero (by simpa using hsp) hS
    rw [hclass, dataOf_romRead]
  · exact (classify_of_even_of_S_ne_zero (by simpa using hsp) hS).symm

/-! ### Any number of flips (R138) -/

/-- An odd number of flips, but not one, is taken for a single flip of another codeword. -/
theorem classify_of_odd_flips (a : Nibble) {e : Word8} (hodd : popcount (wordBits e) % 2 = 1)
    (hone : popcount (wordBits e) ≠ 1) :
    ∃ n : Nibble, n ≠ a ∧ classify (romRead a ^^^ e) = .corrected n := by
  have hsp : (syndrome (romRead a ^^^ e)).sp = true := by
    rw [syndrome_sp_romRead_xor, parity, hodd]; rfl
  obtain ⟨n, -, hnear, hclass⟩ := classify_of_sp hsp
  refine ⟨n, ?_, hclass⟩
  rintro rfl
  exact hone ((hdist_romRead_xor_self n e).symm.trans hnear)

/-- An even number of flips, but not none, is detected, unless it leads to another codeword. -/
theorem classify_of_even_flips (a : Nibble) {e : Word8} (heven : popcount (wordBits e) % 2 = 0)
    (hzero : popcount (wordBits e) ≠ 0) :
    classify (romRead a ^^^ e) = .doubleError ∨
    ∃ n : Nibble, n ≠ a ∧ hdist (romRead n) (romRead a) = popcount (wordBits e) ∧
      classify (romRead a ^^^ e) = .clean n := by
  have hsp : (syndrome (romRead a ^^^ e)).sp = false := by
    rw [syndrome_sp_romRead_xor, parity, heven]; rfl
  by_cases hS : (syndrome (romRead a ^^^ e)).S = 0
  · obtain ⟨n, hn, hclass⟩ := classify_of_syndrome_eq_zero hsp hS
    have hdist_n : hdist (romRead n) (romRead a) = popcount (wordBits e) := by
      rw [← hn, hdist_romRead_xor_self]
    refine .inr ⟨n, ?_, hdist_n, hclass⟩
    rintro rfl
    exact hzero (hdist_n.symm.trans (hdist_eq_zero_iff.mpr rfl))
  · exact .inl (classify_of_even_of_S_ne_zero hsp hS)

/-! ### The code on `cls_class`, from the syndrome -/

theorem classCode_classify (c : Word8) :
    classCode (classify c) = if (syndrome c).sp then 1 else if (syndrome c).S = 0 then 0 else 2 := by
  rw [← classifySyn_eq_classify, classifySyn, apply_ite classCode, apply_ite classCode]
  rfl

theorem classCode_classify_eq_zero_iff (c : Word8) :
    classCode (classify c) = 0 ↔ ∃ a : Nibble, c = romRead a := by
  rw [← syndrome_eq_zero_iff, classCode_classify]
  cases syndrome c
  split_ifs <;> simp_all

theorem classCode_classify_eq_one_iff (c : Word8) :
    classCode (classify c) = 1 ↔ (syndrome c).sp = true := by
  rw [classCode_classify]
  split_ifs <;> simp_all

theorem classCode_classify_eq_two_iff (c : Word8) :
    classCode (classify c) = 2 ↔ (syndrome c).sp = false ∧ (syndrome c).S ≠ 0 := by
  rw [classCode_classify]
  split_ifs <;> simp_all

/-- The code depends only on the error pattern. -/
theorem classCode_classify_romRead_xor (a : Nibble) (e : Word8) :
    classCode (classify (romRead a ^^^ e))
      = if (syndrome e).sp then 1 else if (syndrome e).S = 0 then 0 else 2 := by
  rw [classCode_classify, syndrome_romRead_xor]

end Sys2Proof.Machine
end

/-! ## The statements of spec/43_error_classifier.md -/

section
namespace Sys2Proof.Proofs

open Sys2Proof.Machine

/-- Settles O19: the two cases of the scan, the first one by the distance of the entry found. -/
theorem clsReturnsOnTheFirstMatch : Obligations.ClsReturnsOnTheFirstMatch := by
  intro c s
  refine ⟨_, exec_cls c s, ?_⟩
  rcases classify_cases c with ⟨k, hfirst, hk, hclass⟩ | hnone
  · exact .inl ⟨k, hfirst, by rw [hclass]; exact classAt_cases hk⟩
  · exact .inr hnone

/-- Settles O20: every candidate is within distance 2 of the codebook. -/
theorem tripleOrMoreErrorUnreachable : Obligations.TripleOrMoreErrorUnreachable :=
  fun c s => ⟨_, exec_cls c s, classify_ne_tripleOrMoreError c⟩

/-- Settles O22: the entries within distance 2 all give one class. -/
theorem nearestMatchAgrees : Obligations.NearestMatchAgrees := by
  intro c k s hk
  rw [exec_cls, classify_eq_classAt_of_nearest hk, classAt]

/-- Settles O23: the three cases of the syndrome path. -/
theorem syndromePathAgrees : Obligations.SyndromePathAgrees := by
  intro c s
  refine ⟨_, _, exec_syn c s, exec_cls c s, fun hsp hS => ?_, fun hsp => ?_,
    classify_of_even_of_S_ne_zero⟩
  · simp [← classifySyn_eq_classify, classifySyn, hsp, hS]
  · simp [← classifySyn_eq_classify, classifySyn, hsp]

/-- Settles O24: the flipped codeword is still within distance 2 of the entry, by which it is then classified. -/
theorem singleCorrectedDoubleDetected : Obligations.SingleCorrectedDoubleDetected :=
  ⟨fun a i s => by rw [exec_cls, classify_flip_romRead],
    fun a i j s hij => by rw [exec_cls, classify_flip_flip_romRead a hij]⟩

/-- Settles O21: the class is read off the syndrome, whose `sp` is the parity of the candidate's weight. -/
theorem candidatePartition : Obligations.CandidatePartition := by
  refine ⟨?_, ?_, ?_, fun c => ?_, fun c => ?_, fun c => ?_, fun c hc => ?_, fun c hc => ?_⟩
  · simp only [classCode_classify]; decide +kernel
  · simp only [classCode_classify]; decide +kernel
  · simp only [classCode_classify]; decide +kernel
  · rw [classCode_classify]; split_ifs <;> decide
  · simp only [classCode_classify_eq_zero_iff, hdist_eq_zero_iff]
  · rw [classCode_classify_eq_one_iff, syndrome_sp, parity, beq_iff_eq]
  · exact ((syndromeVerdicts c).2.1 ((classCode_classify_eq_one_iff c).mp hc)).1
  · obtain ⟨hsp, hS⟩ := (classCode_classify_eq_two_iff c).mp hc
    exact ((syndromeVerdicts c).2.2 hsp hS).1

/-- Settles O25: the parity of the number of flips is `sp`, and the distance to the original entry is that number, so an
entry at distance at most 1 is another one. -/
theorem moreThanTwoFlips : Obligations.MoreThanTwoFlips := by
  refine ⟨fun a e he => ?_, fun a e he => ?_, fun a => ⟨?_, ?_⟩, fun a e he => ?_, fun a e he => ?_⟩
  · exact classify_of_odd_flips a (by omega) (by omega)
  · rcases classify_of_even_flips a (e := e) (by omega) (by omega) with h | ⟨n, hn, -, h⟩
    · exact .inl h
    · exact .inr ⟨n, hn, h⟩
  · simp only [classCode_classify_romRead_xor]; decide +kernel
  · simp only [classCode_classify_romRead_xor]; decide +kernel
  · rcases classify_of_even_flips a (e := e) (by omega) (by omega) with h | ⟨n, hn, hd, h⟩
    · exact h
    · rw [hdist_romRead hn, he] at hd
      exact absurd hd (by split_ifs <;> decide)
  · rw [eq_allOnes_of_popcount_wordBits he, BitVec.xor_allOnes, not_romRead, classify_romRead]

end Sys2Proof.Proofs
end

/-! ## Laws of the whole-message decoder: a message is its chunks, each decoded alone -/

section
namespace Sys2Proof

/-! ### Results in sequence: the first failure is the result (R151) -/

/-- Go on with the bits of a success; a failure stands. -/
def Result.andThen (r : Result) (f : BitString → Result) : Result :=
  match r with
  | .ok out => f out
  | .failure cause => .failure cause

@[simp] theorem Result.andThen_of_ok (out : BitString) (f : BitString → Result) :
    (Result.ok out).andThen f = f out := rfl

@[simp] theorem Result.andThen_of_failure (cause : Cause) (f : BitString → Result) :
    (Result.failure cause).andThen f = .failure cause := rfl

@[simp] theorem Result.andThen_ok (r : Result) : r.andThen .ok = r := by
  cases r <;> rfl

@[simp] theorem Result.andThen_assoc (r : Result) (f g : BitString → Result) :
    (r.andThen f).andThen g = r.andThen fun out => (f out).andThen g := by
  cases r <;> rfl

theorem Result.andThen_eq_ok {r : Result} {f : BitString → Result} {out : BitString} :
    r.andThen f = .ok out ↔ ∃ o, r = .ok o ∧ f o = .ok out := by
  cases r <;> simp

end Sys2Proof
end

section
namespace Sys2Proof.Machine

/-! ### A bit string, read chunk by chunk (R147) -/

theorem exists_eq_wordBits {f : BitString} (hf : f.length = 8) : ∃ c, f = wordBits c := by
  cases hc : candidateOf f with
  | none => exact absurd hf (candidateOf_eq_none.mp hc)
  | some c => exact ⟨c, candidateOf_eq_some.mp hc⟩

/-- A bit string is short of a chunk, or it is a chunk and a rest. -/
theorem chunk_induction {P : BitString → Prop} (short : ∀ bits, bits.length < 8 → P bits)
    (chunk : ∀ c rest, P rest → P (wordBits c ++ rest)) (bits : BitString) : P bits := by
  by_cases hlen : bits.length < 8
  · exact short bits hlen
  · obtain ⟨c, hc⟩ := exists_eq_wordBits (f := bits.take 8) (by simp; omega)
    rw [← List.take_append_drop 8 bits, hc]
    exact chunk c _ (chunk_induction short chunk (bits.drop 8))
termination_by bits.length
decreasing_by simp; omega

@[simp] theorem classifyChunk_wordBits (c : Word8) : classifyChunk (wordBits c) = classify c := by
  simp [classifyChunk]

/-! ### The loop of R146, one chunk at a time -/

/-- What one chunk decodes to, by its class (R146). -/
def chunkResult : ErrorClass → Result
  | .clean n => .ok (nibbleBits n)
  | .corrected n => .ok (nibbleBits n)
  | .doubleError => .failure .doubleError
  | .tripleOrMoreError => .failure .tripleOrMoreError

theorem length_of_chunkResult_eq_ok {cls : ErrorClass} {out : BitString}
    (h : chunkResult cls = .ok out) : out.length = 4 := by
  cases cls <;> cases h <;> rfl

theorem decodeFrom_of_short {bits : BitString} (out : BitString) (hlen : bits.length < 8) :
    decodeFrom out bits = .ok out := by
  unfold decodeFrom
  split
  · simp at hlen; omega
  · rfl

theorem decodeFrom_wordBits_append (out : BitString) (c : Word8) (rest : BitString) :
    decodeFrom out (wordBits c ++ rest)
      = (chunkResult (classify c)).andThen fun o => decodeFrom (out ++ o) rest := by
  have hword := Option.some.inj (candidateOf_wordBits c)
  simp only [wordBits, List.cons_append, List.nil_append, decodeFrom, hword]
  cases classify c <;> rfl

theorem decodeMessage_of_short {bits : BitString} (hlen : bits.length < 8) :
    decodeMessage bits = .ok [] :=
  decodeFrom_of_short [] hlen

@[simp] theorem decodeMessage_nil : decodeMessage [] = .ok [] := rfl

/-- The output so far stands in front of what the rest decodes to. -/
theorem decodeFrom_eq_decodeMessage (out bits : BitString) :
    decodeFrom out bits = (decodeMessage bits).andThen fun o => .ok (out ++ o) := by
  induction bits using chunk_induction generalizing out with
  | short bits hlen => simp [decodeFrom_of_short out hlen, decodeMessage_of_short hlen]
  | chunk c rest ih =>
    simp only [decodeMessage, decodeFrom_wordBits_append, Result.andThen_assoc, List.nil_append]
    congr 1
    funext o
    rw [ih, ih o]
    simp

theorem decodeMessage_wordBits_append (c : Word8) (rest : BitString) :
    decodeMessage (wordBits c ++ rest)
      = (chunkResult (classify c)).andThen fun o =>
          (decodeMessage rest).andThen fun r => .ok (o ++ r) := by
  rw [decodeMessage, decodeFrom_wordBits_append]
  simp only [List.nil_append, decodeFrom_eq_decodeMessage]

/-! ### The laws of the whole-message function (R150) -/

/-- `decode` distributes over concatenation at a chunk boundary. -/
theorem decodeMessage_append {a : BitString} (b : BitString) (ha : a.length % 8 = 0) :
    decodeMessage (a ++ b)
      = (decodeMessage a).andThen fun outA =>
          (decodeMessage b).andThen fun outB => .ok (outA ++ outB) := by
  induction a using chunk_induction with
  | short a hlen =>
    obtain rfl : a = [] := List.length_eq_zero_iff.mp (by omega)
    simp
  | chunk c rest ih =>
    have hrest : rest.length % 8 = 0 := by simpa using ha
    simp [decodeMessage_wordBits_append, ih hrest]

theorem decodeMessage_length {bits out : BitString} (h : decodeMessage bits = .ok out) :
    out.length = 4 * (bits.length / 8) := by
  induction bits using chunk_induction generalizing out with
  | short bits hlen =>
    rw [decodeMessage_of_short hlen] at h
    cases h
    simp; omega
  | chunk c rest ih =>
    rw [decodeMessage_wordBits_append] at h
    obtain ⟨o, ho, h⟩ := Result.andThen_eq_ok.mp h
    obtain ⟨r, hr, h⟩ := Result.andThen_eq_ok.mp h
    cases h
    have ho4 := length_of_chunkResult_eq_ok ho
    have hr4 := ih hr
    simp; omega

theorem decodeMessage_append_eq_ok {a b out : BitString} (ha : a.length % 8 = 0)
    (h : decodeMessage (a ++ b) = .ok out) :
    ∃ outA outB, decodeMessage a = .ok outA ∧ decodeMessage b = .ok outB ∧ out = outA ++ outB := by
  rw [decodeMessage_append b ha] at h
  obtain ⟨outA, hA, h⟩ := Result.andThen_eq_ok.mp h
  obtain ⟨outB, hB, h⟩ := Result.andThen_eq_ok.mp h
  cases h
  exact ⟨outA, outB, hA, hB, rfl⟩

/-- Nibble `j` is the decoding of chunk `j` alone: cut the message before and after the chunk, where `decode` distributes,
and the lengths place the three outputs. -/
theorem decodeMessage_nibble {bits out : BitString} {j : Nat} (h : decodeMessage bits = .ok out)
    (hj : 8 * j + 8 ≤ bits.length) :
    decodeMessage ((bits.drop (8 * j)).take 8) = .ok ((out.drop (4 * j)).take 4) := by
  have hbefore : (bits.take (8 * j)).length = 8 * j := by simp; omega
  have hchunk : ((bits.drop (8 * j)).take 8).length = 8 := by simp; omega
  rw [← List.take_append_drop (8 * j) bits] at h
  obtain ⟨out0, tail, h0, htail, rfl⟩ := decodeMessage_append_eq_ok (by omega) h
  rw [← List.take_append_drop 8 (bits.drop (8 * j))] at htail
  obtain ⟨out1, out2, h1, -, rfl⟩ := decodeMessage_append_eq_ok (by omega) htail
  have hlen0 := decodeMessage_length h0
  have hlen1 := decodeMessage_length h1
  rw [List.drop_left' (by omega), List.take_left' (by omega), h1]

/-! ### The strict function (R146, R189) -/

/-- What `STRICT_LEN` makes of a success of a message of `len` bits (R146, R183). -/
def checkLength (strict : Bool) (len : Nat) (out : BitString) : Result :=
  if strict = true ∧ len % 8 ≠ 0 then .failure .malformedInput else .ok out

theorem decodeUnder_eq_andThen (strict : Bool) (bits : BitString) :
    decodeUnder strict bits = (decodeMessage bits).andThen (checkLength strict bits.length) := by
  cases strict with
  | false => exact (Result.andThen_ok _).symm
  | true =>
    cases h : decodeMessage bits with
    | failure cause => simp [decodeUnder, decodeStrict, h]
    | ok out => by_cases hlen : bits.length % 8 = 0 <;>
        simp [decodeUnder, decodeStrict, checkLength, h, hlen]

theorem decodeStrict_eq_andThen (bits : BitString) :
    decodeStrict bits = (decodeMessage bits).andThen (checkLength true bits.length) :=
  decodeUnder_eq_andThen true bits

/-! ### Encoded and corrupted messages (R151 to R153) -/

@[simp] theorem classify_enc4 (n : Nibble) : classify (enc4 n) = .clean n := by
  rw [enc4_eq_romRead, classify_romRead]

theorem decodeMessage_encodeMessage : ∀ m : BitString,
    decodeMessage (encodeMessage m) = .ok (m.take (4 * (m.length / 4)))
  | [] | [_] | [_, _] | [_, _, _] => by simp [encodeMessage]
  | d1 :: d2 :: d3 :: d4 :: rest => by
    have hlen : 4 * ((rest.length + 4) / 4) = 4 * (rest.length / 4) + 4 := by omega
    simp [encodeMessage, decodeMessage_wordBits_append, decodeMessage_encodeMessage rest, chunkResult,
      nibbleBits_nibbleOf, hlen]

theorem hdist_enc4_xor_romRead (n : Nibble) (e : Word8) :
    hdist (enc4 n ^^^ e) (romRead n) = popcount (wordBits e) := by
  rw [enc4_eq_romRead, hdist_romRead_xor_self]

/-- A codeword with at most one flipped bit still decodes to its nibble. -/
theorem chunkResult_of_one_flip (n : Nibble) {e : Word8} (he : popcount (wordBits e) ≤ 1) :
    chunkResult (classify (enc4 n ^^^ e)) = .ok (nibbleBits n) := by
  have hd := hdist_enc4_xor_romRead n e
  rw [classify_eq_classAt (k := n) (by omega)]
  rcases classAt_cases (c := enc4 n ^^^ e) (e := romRead n) (by omega)
    with ⟨hzero, hclass⟩ | ⟨-, hclass⟩ | ⟨htwo, -⟩
  · rw [hclass, hdist_eq_zero_iff.mp hzero, dataOf_romRead]; rfl
  · rw [hclass, dataOf_romRead]; rfl
  · omega

/-- A codeword with two flipped bits fails. -/
theorem chunkResult_of_two_flips (n : Nibble) {e : Word8} (he : popcount (wordBits e) = 2) :
    chunkResult (classify (enc4 n ^^^ e)) = .failure .doubleError := by
  have hd : hdist (enc4 n ^^^ e) (romRead n) = 2 := (hdist_enc4_xor_romRead n e).trans he
  rw [classify_eq_classAt hd.le, classAt_of_hdist_eq_two hd]; rfl

/-- Chunks with at most one flipped bit each decode to their nibbles, whatever follows them. -/
theorem decodeMessage_one_flip_chunks_append (rest : BitString) {chunks : List (Nibble × Word8)}
    (hchunks : ∀ p ∈ chunks, popcount (wordBits p.2) ≤ 1) :
    decodeMessage ((chunks.flatMap fun p => wordBits (enc4 p.1 ^^^ p.2)) ++ rest)
      = (decodeMessage rest).andThen fun out =>
          .ok ((chunks.flatMap fun p => nibbleBits p.1) ++ out) := by
  induction chunks with
  | nil => simp
  | cons p chunks ih =>
    obtain ⟨hp, hrest⟩ := List.forall_mem_cons.mp hchunks
    simp [decodeMessage_wordBits_append, chunkResult_of_one_flip p.1 hp, ih hrest]

/-! ### The meanings of the decoder engine's operations (R147, R148) -/

theorem exec_dpush (b : Bit) (s : State) :
    exec (.dpush b) s = .next (pushDec b { s with out := .none }) := rfl

theorem exec_dend (s : State) :
    exec .dend s = .next { s with
      dec := State.reset.dec
      out := .dResult (decResult s.straps.strictLen s.dec) (decFailureIndex s) } := rfl

theorem pushDec_of_failed (b : Bit) {s : State} (hfailed : s.dec.status = .failed) :
    pushDec b s = s := by
  simp [pushDec, hfailed]

theorem pushDec_of_incomplete (b : Bit) {s : State} (hrun : s.dec.status = .run)
    (hlen : s.dec.frag.length < 7) :
    pushDec b s = { s with dec := { s.dec with frag := s.dec.frag ++ [b] } } := by
  simp [pushDec, hrun]; omega

theorem pushDec_of_complete {b0 b1 b2 b3 b4 b5 b6 : Bit} (b7 : Bit) {s : State}
    (hrun : s.dec.status = .run) (hfrag : s.dec.frag = [b0, b1, b2, b3, b4, b5, b6]) :
    pushDec b7 s = takeChunk (classify (wordOf b0 b1 b2 b3 b4 b5 b6 b7))
      { s with dec := { s.dec with frag := [] } } := by
  simp [pushDec, hrun, hfrag, classifyChunk_of_candidate]

/-- An emitted event, as one update of the output and the log. -/
theorem emitDiag_eq (ev : DiagEvent) (s : State) :
    emitDiag ev s = { s with
      out := if s.straps.diag = true then .diag ev else s.out
      diagLog := if s.straps.diag = true then s.diagLog ++ [ev] else s.diagLog } := by
  unfold emitDiag
  split <;> rfl

theorem decResult_of_failed {strict : Bool} {d : DecEngine} (hfailed : d.status = .failed) :
    decResult strict d = .failure (causeOf d.failClass) := by
  simp [decResult, hfailed]

theorem decResult_of_strict_of_pending {strict : Bool} {d : DecEngine} (hrun : d.status = .run)
    (hstrict : strict = true) (hfrag : d.frag ≠ []) :
    decResult strict d = .failure .malformedInput := by
  simp [decResult, hrun, hstrict, hfrag]

theorem decResult_of_lenient_or_whole {strict : Bool} {d : DecEngine} (hrun : d.status = .run)
    (h : strict = false ∨ d.frag = []) : decResult strict d = .ok d.acc := by
  rcases h with hstrict | hfrag
  · simp [decResult, hrun, hstrict]
  · simp [decResult, hrun, hfrag]

theorem decFailureIndex_of_failed {s : State} (hfailed : s.dec.status = .failed) :
    decFailureIndex s = if s.straps.diag = true then some s.dec.failIdx else none := by
  simp [decFailureIndex, hfailed]

theorem decFailureIndex_of_run {s : State} (hrun : s.dec.status = .run) :
    decFailureIndex s = none := by
  simp [decFailureIndex, hrun]

/-! ### What a message will deliver and emit, from the registers and the bits still to come (R149) -/

/-- What `DEND` will deliver when `bits` are still to be pushed. -/
def resultAfter (strict : Bool) (bits : BitString) (d : DecEngine) : Result :=
  match d.status with
  | .failed => .failure (causeOf d.failClass)
  | .run =>
    (decodeFrom d.acc (d.frag ++ bits)).andThen (checkLength strict (d.frag ++ bits).length)

/-- The events that will be emitted when `bits` are still to be pushed. -/
def eventsAfter (straps : Straps) (bits : BitString) (d : DecEngine) : List DiagEvent :=
  if straps.diag = true ∧ d.status = .run then decodeEvents d.idx (d.frag ++ bits) else []

theorem resultAfter_reset (strict : Bool) (bits : BitString) :
    resultAfter strict bits State.reset.dec = decodeUnder strict bits :=
  (decodeUnder_eq_andThen strict bits).symm

theorem resultAfter_nil (strict : Bool) {d : DecEngine} (hfrag : d.frag.length < 8) :
    resultAfter strict [] d = decResult strict d := by
  cases hst : d.status with
  | failed => simp [resultAfter, decResult, hst]
  | run =>
    have hmod : d.frag.length % 8 = d.frag.length := Nat.mod_eq_of_lt hfrag
    simp [resultAfter, decResult, hst, decodeFrom_of_short d.acc hfrag, checkLength, hmod]

theorem checkLength_wordBits_append (strict : Bool) (c : Word8) (bits : BitString) :
    checkLength strict (wordBits c ++ bits).length = checkLength strict bits.length := by
  funext out
  simp [checkLength]

theorem resultAfter_takeChunk (strict : Bool) (bits : BitString) (cls : ErrorClass) {s : State}
    (hrun : s.dec.status = .run) :
    resultAfter strict bits (takeChunk cls { s with dec := { s.dec with frag := [] } }).dec
      = (chunkResult cls).andThen fun o =>
          (decodeFrom (s.dec.acc ++ o) bits).andThen (checkLength strict bits.length) := by
  cases cls <;> simp [takeChunk, resultAfter, chunkResult, failClassOf, causeOf, hrun]

theorem resultAfter_pushDec (strict : Bool) (b : Bit) (bits : BitString) {s : State}
    (hfrag : s.dec.frag.length < 8) :
    resultAfter strict bits (pushDec b s).dec = resultAfter strict (b :: bits) s.dec := by
  rcases pushDec_cases b s with ⟨hfailed, h⟩ | ⟨hrun, -, h⟩ | ⟨hrun, hlen, h⟩
  · simp [h, resultAfter, hfailed]
  · simp [h, resultAfter, hrun]
  · obtain ⟨c, hc⟩ := exists_eq_wordBits (f := s.dec.frag ++ [b]) (by simp; omega)
    have hbits : s.dec.frag ++ b :: bits = wordBits c ++ bits := by simp [← hc]
    rw [h, resultAfter_takeChunk strict bits _ hrun, hc, classifyChunk_wordBits]
    simp only [resultAfter, hrun, hbits, decodeFrom_wordBits_append, checkLength_wordBits_append,
      Result.andThen_assoc]

theorem decodeEvents_of_short {bits : BitString} (j : Nat) (hlen : bits.length < 8) :
    decodeEvents j bits = [] := by
  unfold decodeEvents
  split
  · simp at hlen; omega
  · rfl

/-- A chunk's own event comes first, and the rest's follow unless the chunk fails (R149). -/
theorem decodeEvents_wordBits_append (j : Nat) (c : Word8) (rest : BitString) :
    decodeEvents j (wordBits c ++ rest)
      = (chunkEvent j (classify c)).toList
        ++ if (classNibble (classify c)).isSome = true then decodeEvents (j + 1) rest else [] := by
  have hword := Option.some.inj (candidateOf_wordBits c)
  simp only [wordBits, List.cons_append, List.nil_append, decodeEvents, hword]
  cases classify c <;> rfl

theorem eventsAfter_nil (straps : Straps) {d : DecEngine} (hfrag : d.frag.length < 8) :
    eventsAfter straps [] d = [] := by
  simp [eventsAfter, decodeEvents_of_short d.idx hfrag]

theorem eventsAfter_takeChunk {straps : Straps} (bits : BitString) (cls : ErrorClass) {s : State}
    (hdiag : straps.diag = true) (hrun : s.dec.status = .run) :
    eventsAfter straps bits (takeChunk cls { s with dec := { s.dec with frag := [] } }).dec
      = if (classNibble cls).isSome = true then decodeEvents (s.dec.idx + 1) bits else [] := by
  cases cls <;> simp [takeChunk, eventsAfter, classNibble, hdiag, hrun]

theorem pushEvent_append_eventsAfter_pushDec (straps : Straps) (b : Bit) (bits : BitString)
    {s : State} (hfrag : s.dec.frag.length < 8) :
    (pushEvent b straps s.dec).toList ++ eventsAfter straps bits (pushDec b s).dec
      = eventsAfter straps (b :: bits) s.dec := by
  by_cases hdiag : straps.diag = true
  · rcases pushDec_cases b s with ⟨hfailed, h⟩ | ⟨hrun, hlen, h⟩ | ⟨hrun, hlen, h⟩
    · simp [h, pushEvent_of_incomplete b straps (.inl hfailed), eventsAfter, hfailed]
    · simp [h, pushEvent_of_incomplete b straps (.inr hlen), eventsAfter, hrun]
    · obtain ⟨c, hc⟩ := exists_eq_wordBits (f := s.dec.frag ++ [b]) (by simp; omega)
      have hbits : s.dec.frag ++ b :: bits = wordBits c ++ bits := by simp [← hc]
      rw [h, eventsAfter_takeChunk bits _ hdiag hrun, pushEvent_of_complete b straps hrun hlen,
        hc, classifyChunk_wordBits]
      simp [eventsAfter, hdiag, hrun, hbits, decodeEvents_wordBits_append]
  · simp [pushEvent, eventsAfter, hdiag]

/-! ### The decoder engine under interleaved operations (R31, R149) -/

/-- The operations still to execute end no message, and with their bits the decoder will deliver `r` and complete the log
to `log`. -/
def DecoderWillDeliver (r : Result) (log : List DiagEvent) (ops : List Instr) (s : State) : Prop :=
  (∀ i ∈ ops, i ≠ .dend ∧ i ≠ .reset) ∧ s.dec.Consistent ∧
  resultAfter s.straps.strictLen (decBitsOf ops) s.dec = r ∧
  s.diagLog ++ eventsAfter s.straps (decBitsOf ops) s.dec = log

theorem DecEngine.Consistent.frag_length_lt {d : DecEngine} (hd : d.Consistent) :
    d.frag.length < 8 := by
  rcases hd with ⟨-, -, hlen, -⟩ | ⟨-, -, hfrag, -⟩
  · omega
  · simp [hfrag]

theorem decoderWillDeliver_exec {r : Result} {log : List DiagEvent} (i : Instr) (ops : List Instr)
    (s t : State) (hs : DecoderWillDeliver r log (i :: ops) s) (h : exec i s = .next t) :
    DecoderWillDeliver r log ops t := by
  obtain ⟨hops, hcons, hresult, hlog⟩ := hs
  obtain ⟨⟨hend, hreset⟩, hrest⟩ := List.forall_mem_cons.mp hops
  cases i with
  | dpush b =>
    have hlen := hcons.frag_length_lt
    obtain ⟨hemit, -⟩ := exec_dpush_emitted h
    cases h
    refine ⟨hrest, pushDec_consistent b hcons, ?_, ?_⟩
    · rw [pushDec_straps, resultAfter_pushDec _ b _ (s := drive .none s) hlen]
      exact hresult
    · have hevents := pushEvent_append_eventsAfter_pushDec s.straps b (decBitsOf ops)
        (s := drive .none s) hlen
      rw [hemit, pushDec_straps, List.append_assoc]
      exact (congrArg _ hevents).trans hlog
  | dend => exact absurd rfl hend
  | reset => exact absurd rfl hreset
  | cbrd _ | enc4 _ | epush _ | eend | syn _ | cls _ =>
    cases h; exact ⟨hrest, hcons, hresult, hlog⟩

theorem decoderWillDeliver_of_reset {ops : List Instr} {s : State}
    (hops : ∀ i ∈ ops, i ≠ .dend ∧ i ≠ .reset) (hdec : s.dec = State.reset.dec) :
    DecoderWillDeliver (decodeUnder s.straps.strictLen (decBitsOf ops))
      (s.diagLog ++ if s.straps.diag = true then decodeEvents 0 (decBitsOf ops) else []) ops s := by
  refine ⟨hops, hdec ▸ .inl (by decide), by rw [hdec, resultAfter_reset], ?_⟩
  simp [hdec, eventsAfter, State.reset]

theorem core_run_dend (s : State) :
    core.run 1 (issue [.dend] s)
      = .next { s with
          dec := State.reset.dec
          out := .dResult (decResult s.straps.strictLen s.dec) (decFailureIndex s) } :=
  core_run_issue_cons 0 (exec_issue [] (exec_dend s))

end Sys2Proof.Machine
end

/-! ## The statements of spec/44_decoder.md -/

section
namespace Sys2Proof.Proofs

open Sys2Proof.Machine

/-- Settles O36: what the decoder will deliver and emit, computed from its registers and the bits still to come, does not
change along the run; at the start it is `decode` and its events, and with no bits to come it is what `DEND` reads. -/
theorem decoderEngineRealisesDecode : Obligations.DecoderEngineRealisesDecode := by
  intro ops s hops hdec
  obtain ⟨t, hrun, ⟨-, hcons, hresult, hlog⟩, -, hpending⟩ :=
    core_run_issue_append decoderWillDeliver_exec [.dend] 1 ops s
      (decoderWillDeliver_of_reset hops hdec)
  refine ⟨_, decFailureIndex t, hrun.trans (core_run_dend t), ?_, rfl, hpending, ?_⟩
  · rw [← resultAfter_nil _ hcons.frag_length_lt]
    exact congrArg (Output.dResult · _) hresult
  · simpa [decBitsOf, eventsAfter_nil _ hcons.frag_length_lt] using hlog

/-- Settles O33: the three cases of a push; a completed chunk acts by its class. -/
theorem dpushFollowsTheRule : Obligations.DpushFollowsTheRule := by
  refine ⟨fun b s hfailed => ?_, fun b s hrun hlen => ?_,
    fun b0 b1 b2 b3 b4 b5 b6 b7 s hrun hfrag => ?_⟩
  · rw [exec_dpush, pushDec_of_failed b (s := { s with out := .none }) hfailed]
  · rw [exec_dpush, pushDec_of_incomplete b (s := { s with out := .none }) hrun hlen]
  · rw [exec_dpush, pushDec_of_complete b7 (s := { s with out := .none }) hrun hfrag]
    cases classify (wordOf b0 b1 b2 b3 b4 b5 b6 b7) with
    | clean n => rfl
    | corrected n => simp only [takeChunk, emitDiag_eq]; rfl
    | doubleError | tripleOrMoreError => simp only [takeChunk, raiseUncorrectable, emitDiag_eq]; rfl

/-- Settles O38: the concatenation law is an induction over the chunks, the position law cuts the message by it. -/
theorem decodeLengthAndPositionLaws : Obligations.DecodeLengthAndPositionLaws := by
  refine ⟨fun bits out h => ⟨decodeMessage_length h, fun j => decodeMessage_nibble h⟩,
    fun a b ha => ?_⟩
  rw [decodeMessage_append b ha]
  cases decodeMessage a with
  | failure cause => rfl
  | ok outA => cases decodeMessage b <;> rfl

/-- Settles O39: every codeword of the encoded message is `Clean` with its own nibble. -/
theorem decodeOfEncodedMessage : Obligations.DecodeOfEncodedMessage :=
  decodeMessage_encodeMessage

/-- Settles O40: each chunk is `Clean` or `Corrected` with its own nibble. -/
theorem oneFlipPerChunkIsCorrected : Obligations.OneFlipPerChunkIsCorrected := by
  intro chunks hchunks
  simpa using decodeMessage_one_flip_chunks_append [] hchunks

/-- Settles O41: the chunks before decode, and the failure of the next one stands, whatever follows and whatever the strap. -/
theorem failFastOnDoubleCorruptedChunk : Obligations.FailFastOnDoubleCorruptedChunk := by
  intro before n e after strict hbefore he
  rw [decodeUnder_eq_andThen, List.append_assoc, decodeMessage_one_flip_chunks_append _ hbefore,
    decodeMessage_wordBits_append, chunkResult_of_two_flips n he]
  rfl

/-- Settles O35: the result and its index, by the status and then by the strap and the fragment. -/
theorem dendReportsAndClears : Obligations.DendReportsAndClears := by
  refine fun s => ⟨fun hfailed hclass => ?_, fun hfailed hclass => ?_, fun hrun hstrict hfrag => ?_,
    fun hrun h => ?_⟩
  · rw [exec_dend, decResult_of_failed hfailed, decFailureIndex_of_failed hfailed, hclass]; rfl
  · rw [exec_dend, decResult_of_failed hfailed, decFailureIndex_of_failed hfailed, hclass]; rfl
  · rw [exec_dend, decResult_of_strict_of_pending hrun hstrict hfrag, decFailureIndex_of_run hrun]
  · rw [exec_dend, decResult_of_lenient_or_whole hrun h, decFailureIndex_of_run hrun]

/-- Settles O37: the length is checked only after a success of the loop. -/
theorem strictDecodePrecedence : Obligations.StrictDecodePrecedence := by
  refine ⟨fun bits cause h => ?_, fun bits out h => ?_, rfl, rfl⟩
  · rw [decodeStrict_eq_andThen, h]; rfl
  · rw [decodeStrict_eq_andThen, h]
    simp [checkLength]

end Sys2Proof.Proofs
end

/-! ## Laws of the decoder's failures: when one is taken, and how long it stands -/

section
namespace Sys2Proof.Machine

/-! ### When a failure is taken (R181) -/

theorem mem_codebook_iff {c : Word8} : c ∈ codebook ↔ ∃ a : Nibble, c = romRead a := by
  constructor
  · intro hc
    obtain ⟨i, hi, rfl⟩ := List.getElem_of_mem hc
    exact ⟨BitVec.ofFin ⟨i, hi⟩, rfl⟩
  · rintro ⟨a, rfl⟩
    exact List.getElem_mem _

/-- `sp` is the parity of the weight, and a word of even weight is a codeword exactly when its other checks hold. -/
theorem even_and_not_mem_codebook_iff (b0 b1 b2 b3 b4 b5 b6 b7 : Bit) :
    (popcount [b0, b1, b2, b3, b4, b5, b6, b7] % 2 = 0 ∧
      wordOf b0 b1 b2 b3 b4 b5 b6 b7 ∉ codebook) ↔
    ((syndrome (wordOf b0 b1 b2 b3 b4 b5 b6 b7)).sp = false ∧
      (syndrome (wordOf b0 b1 b2 b3 b4 b5 b6 b7)).S ≠ 0) := by
  rw [← wordBits_wordOf]
  generalize wordOf b0 b1 b2 b3 b4 b5 b6 b7 = c
  have hparity : popcount (wordBits c) % 2 = 0 ↔ (syndrome c).sp = false := by
    rw [syndrome_sp, parity, beq_eq_false_iff_ne, Nat.mod_two_ne_one]
  rw [hparity, mem_codebook_iff, ← syndrome_eq_zero_iff]
  refine and_congr_right fun hsp => not_congr ?_
  exact ⟨congrArg Syndrome.S, fun hS => by rw [← hS, ← hsp]⟩

theorem classify_eq_doubleError_iff (c : Word8) :
    classify c = .doubleError ↔ (syndrome c).sp = false ∧ (syndrome c).S ≠ 0 := by
  rw [← classifySyn_eq_classify, classifySyn]
  split_ifs with hsp hS
  · simp [hsp]
  · simp [hS]
  · exact iff_of_true rfl ⟨Bool.eq_false_of_not_eq_true hsp, hS⟩

/-- The registers after a completed chunk, in the two cases a class that occurs leaves (R147, R187). -/
theorem takeChunk_dec {cls : ErrorClass} (hcls : cls ≠ .tripleOrMoreError) (s : State) :
    (cls = .doubleError ∧ (takeChunk cls s).dec = { s.dec with
      status := .failed, failClass := .double, failIdx := s.dec.idx, acc := [], frag := [] }) ∨
    (cls ≠ .doubleError ∧ ∃ n : Nibble, (takeChunk cls s).dec = { s.dec with
      acc := s.dec.acc ++ nibbleBits n, idx := s.dec.idx + 1 }) := by
  rcases takeChunk_cases cls s with ⟨n, rfl, h⟩ | ⟨n, rfl, h⟩ | ⟨rfl, h⟩ | ⟨htriple, -⟩
  · exact .inr ⟨nofun, n, by simp [h]⟩
  · exact .inr ⟨nofun, n, by simp [h]⟩
  · exact .inl ⟨rfl, by simp [h, failClassOf]⟩
  · exact absurd htriple hcls

/-! ### How long a failure stands (R190, R191) -/

theorem exec_reset (s : State) :
    exec .reset s = .next { s with
      enc := State.reset.enc
      dec := State.reset.dec
      out := .none } := rfl

/-- A failed decoder keeps every register, and so its first failure, until `DEND` or `RESET`. -/
theorem exec_dec_of_failed {i : Instr} {s t : State} (hdend : i ≠ .dend) (hreset : i ≠ .reset)
    (hfailed : s.dec.status = .failed) (h : exec i s = .next t) : t.dec = s.dec := by
  cases i with
  | dpush b =>
    rw [exec_dpush, pushDec_of_failed b (s := { s with out := .none }) hfailed] at h
    cases h; rfl
  | dend => exact absurd rfl hdend
  | reset => exact absurd rfl hreset
  | cbrd _ | enc4 _ | epush _ | eend | syn _ | cls _ => cases h; rfl

end Sys2Proof.Machine
end

/-! ## The statements of spec/60_exceptions.md -/

section
namespace Sys2Proof.Proofs

open Sys2Proof.Machine

/-- Settles O34: the candidate's class is `DoubleError` exactly on the even words that are no codewords, and
`TripleOrMoreError` on none, so every other completed chunk yields a nibble. -/
theorem doubleErrorTakenOnEvenNonCodewords : Obligations.DoubleErrorTakenOnEvenNonCodewords := by
  refine ⟨even_and_not_mem_codebook_iff, fun b0 b1 b2 b3 b4 b5 b6 b7 s hrun hfrag => ?_⟩
  refine ⟨_, exec_dpush b7 s, pushDec_enc b7 _, ?_⟩
  have hfails := (classify_eq_doubleError_iff _).trans
    (even_and_not_mem_codebook_iff b0 b1 b2 b3 b4 b5 b6 b7).symm
  rw [pushDec_of_complete b7 (s := { s with out := .none }) hrun hfrag]
  rcases takeChunk_dec (classify_ne_tripleOrMoreError (wordOf b0 b1 b2 b3 b4 b5 b6 b7))
      { s with dec := { s.dec with frag := [] }, out := .none } with ⟨hdouble, h⟩ | ⟨hother, n, h⟩
  · rw [h, if_pos (hfails.mp hdouble)]
    exact ⟨rfl, rfl, rfl, rfl, rfl, rfl⟩
  · rw [h, if_neg (mt hfails.mpr hother)]
    exact ⟨rfl, hrun, rfl, rfl, List.length_append⟩

/-- Settles O42: any other operation leaves a failed decoder as it is, and these two write its reset values. -/
theorem onlyDendAndResetLeaveFailed : Obligations.OnlyDendAndResetLeaveFailed := by
  refine ⟨fun i s t h hfailed hrun => ?_, fun s => ⟨_, exec_dend s, rfl⟩,
    fun s => ⟨_, exec_reset s, rfl⟩⟩
  by_contra hother
  obtain ⟨hdend, hreset⟩ := not_or.mp hother
  rw [exec_dec_of_failed hdend hreset hfailed h, hfailed] at hrun
  cases hrun

end Sys2Proof.Proofs
end

/-! ## The statements of spec/70_reset_and_hazards.md -/

section
namespace Sys2Proof.Proofs

open Sys2Proof.Machine

/-- Settles O44: `RESET` loads both engines from `State.reset`, whose registers the statement writes out (R20, R35). -/
theorem resetWritesEveryRegister : Obligations.ResetWritesEveryRegister :=
  fun s => exec_reset s

end Sys2Proof.Proofs
end
